-- ==== Sys2Proof/Word.lean ====
section
/-! DEFINITION. The two word types of the block: bytes and 32-bit words (spec/00_scope.md R10, R11). -/

namespace Sys2Proof

/-- A byte: the unit of the buffer, of a payload and of a field of the command word. -/
abbrev Byte := BitVec 8

/-- A 32-bit unsigned word: an operand, a counter, an identifier, a tag. -/
abbrev Word := BitVec 32

end Sys2Proof
end

