-- ==== Sys2Proof/Syntax.lean ====
section
/-! DEFINITION. Command beats and the 49 commands of the block (spec/30_encoding.md R81, R87). -/

namespace Sys2Proof

/-- One transfer on the command port (R80, R81): the command word and the two operand words. -/
structure Beat where
  cw : Word
  opa : Word
  opb : Word
  deriving DecidableEq, Repr

/-- The commands, one constructor per row of R87, in the table's order. A frame index is the raw
byte of its field (its range is R86's check), `imm` is the byte `c`, and an operand word is carried
whole (R83 says which part of it a command takes). -/
inductive Instr where
  | nop
  | stat
  | finit (a imm : Byte) (opa : Word)
  | dsize (a : Byte)
  | setdat (a imm : Byte) (opa : Word)
  | getdat (a imm : Byte)
  | setmrk (a : Byte) (opa : Word)
  | getmrk (a : Byte)
  | setusr (a : Byte) (opa : Word)
  | getusr (a : Byte)
  | setts (a : Byte) (opa opb : Word)
  | gettss (a : Byte)
  | gettsn (a : Byte)
  | tsval (a : Byte)
  | fcopy (a b : Byte)
  | feq (a b : Byte)
  | getfmt (a : Byte)
  | setid (a : Byte) (opa : Word)
  | getid (a : Byte)
  | setdlc (a imm : Byte)
  | getdlc (a : Byte)
  | isext (a : Byte)
  | isrtr (a : Byte)
  | isovr (a : Byte)
  | setrtr (a imm : Byte)
  | setovr (a imm : Byte)
  | fclr (a : Byte)
  | getctrl (a : Byte)
  | serd (a : Byte)
  | sera
  | sere
  | desd (a : Byte)
  | desa
  | dese
  | bkind
  | awr (opa opb : Word)
  | ard (opa : Word)
  | ewr (opa opb : Word)
  | erd (opa : Word)
  | flapp (a b : Byte) (opa opb : Word)
  | flrem (opa : Word)
  | flcnt
  | fltest (a : Byte)
  | tsadd (a b : Byte)
  | tssub (a b : Byte)
  | bufwr (opa opb : Word)
  | bufrd (opa : Word)
  | setblen (opa : Word)
  | getblen
  deriving DecidableEq, Repr

end Sys2Proof
end

