-- ==== Sys2Proof/Decode.lean ====
section
/-! DEFINITION. The decoder of a command beat (spec/30_encoding.md R81 to R89), the opcode map as the
spec tabulates it, and the encoder. The decoder rejects by name (R84, R85); R86 needs `NFRAME` and is
checked where the frame register is accessed (Machine/Operands.lean). -/

namespace Sys2Proof

/-- `CW[31:24]`, the opcode (R81). -/
def opField (cw : Word) : Byte := cw.extractLsb' 24 8

/-- `CW[23:16]`, the field `a` (R81). -/
def aField (cw : Word) : Byte := cw.extractLsb' 16 8

/-- `CW[15:8]`, the field `b` (R81). -/
def bField (cw : Word) : Byte := cw.extractLsb' 8 8

/-- `CW[7:0]`, the field `c` (R81). -/
def cField (cw : Word) : Byte := cw.extractLsb' 0 8

/-- The command word with the four byte fields given (R81). -/
def commandWord (op a b c : Byte) : Word := op ++ a ++ b ++ c

/-- The two causes for which decoding a beat refuses it. Both end in `illegal()` (R232). -/
inductive Reject where
  /-- R84: `CW[31:24]` is none of the 49 opcodes. -/
  | unknownOpcode
  /-- R85: a `CW` field that the command's format does not use is not zero. -/
  | reservedField
  deriving DecidableEq, Repr

/-- Format N: nothing used, `a`, `b`, `c` must be zero (R82). Formats A and AB have the same fields. -/
def formN (cw : Word) (i : Instr) : Except Reject Instr :=
  if aField cw = 0 ∧ bField cw = 0 ∧ cField cw = 0 then .ok i else .error .reservedField

/-- Formats F, FA, FAB: `a` used, `b`, `c` must be zero (R82). -/
def formF (cw : Word) (k : Byte → Instr) : Except Reject Instr :=
  if bField cw = 0 ∧ cField cw = 0 then .ok (k (aField cw)) else .error .reservedField

/-- Formats FF and R: `a`, `b` used, `c` must be zero (R82). -/
def formFF (cw : Word) (k : Byte → Byte → Instr) : Except Reject Instr :=
  if cField cw = 0 then .ok (k (aField cw) (bField cw)) else .error .reservedField

/-- Formats FI and FIA: `a`, `c` used, `b` must be zero (R82). -/
def formFI (cw : Word) (k : Byte → Byte → Instr) : Except Reject Instr :=
  if bField cw = 0 then .ok (k (aField cw) (cField cw)) else .error .reservedField

/-- Decode a beat (R84, R85, R87). Operand words a format does not use are not looked at (R88). -/
def decode (b : Beat) : Except Reject Instr :=
  match opField b.cw with
  | 0x00#8 => formN b.cw .nop
  | 0x01#8 => formN b.cw .stat
  | 0x10#8 => formFI b.cw fun a c => .finit a c b.opa
  | 0x11#8 => formF b.cw .dsize
  | 0x12#8 => formFI b.cw fun a c => .setdat a c b.opa
  | 0x13#8 => formFI b.cw .getdat
  | 0x14#8 => formF b.cw fun a => .setmrk a b.opa
  | 0x15#8 => formF b.cw .getmrk
  | 0x16#8 => formF b.cw fun a => .setusr a b.opa
  | 0x17#8 => formF b.cw .getusr
  | 0x18#8 => formF b.cw fun a => .setts a b.opa b.opb
  | 0x19#8 => formF b.cw .gettss
  | 0x1A#8 => formF b.cw .gettsn
  | 0x1B#8 => formF b.cw .tsval
  | 0x1C#8 => formFF b.cw .fcopy
  | 0x1D#8 => formFF b.cw .feq
  | 0x1E#8 => formF b.cw .getfmt
  | 0x20#8 => formF b.cw fun a => .setid a b.opa
  | 0x21#8 => formF b.cw .getid
  | 0x22#8 => formFI b.cw .setdlc
  | 0x23#8 => formF b.cw .getdlc
  | 0x24#8 => formF b.cw .isext
  | 0x25#8 => formF b.cw .isrtr
  | 0x26#8 => formF b.cw .isovr
  | 0x27#8 => formFI b.cw .setrtr
  | 0x28#8 => formFI b.cw .setovr
  | 0x29#8 => formF b.cw .fclr
  | 0x2A#8 => formF b.cw .getctrl
  | 0x30#8 => formF b.cw .serd
  | 0x31#8 => formN b.cw .sera
  | 0x32#8 => formN b.cw .sere
  | 0x34#8 => formF b.cw .desd
  | 0x35#8 => formN b.cw .desa
  | 0x36#8 => formN b.cw .dese
  | 0x38#8 => formN b.cw .bkind
  | 0x39#8 => formN b.cw (.awr b.opa b.opb)
  | 0x3A#8 => formN b.cw (.ard b.opa)
  | 0x3B#8 => formN b.cw (.ewr b.opa b.opb)
  | 0x3C#8 => formN b.cw (.erd b.opa)
  | 0x40#8 => formFF b.cw fun a r => .flapp a r b.opa b.opb
  | 0x41#8 => formN b.cw (.flrem b.opa)
  | 0x42#8 => formN b.cw .flcnt
  | 0x43#8 => formF b.cw .fltest
  | 0x50#8 => formFF b.cw .tsadd
  | 0x51#8 => formFF b.cw .tssub
  | 0x60#8 => formN b.cw (.bufwr b.opa b.opb)
  | 0x61#8 => formN b.cw (.bufrd b.opa)
  | 0x62#8 => formN b.cw (.setblen b.opa)
  | 0x63#8 => formN b.cw .getblen
  | _ => .error .unknownOpcode

/-- Encode a command (R82, R87): unused fields and unused operand words are zero (R85, R88). -/
def encode : Instr → Beat
  | .nop => ⟨commandWord 0x00 0 0 0, 0, 0⟩
  | .stat => ⟨commandWord 0x01 0 0 0, 0, 0⟩
  | .finit a imm opa => ⟨commandWord 0x10 a 0 imm, opa, 0⟩
  | .dsize a => ⟨commandWord 0x11 a 0 0, 0, 0⟩
  | .setdat a imm opa => ⟨commandWord 0x12 a 0 imm, opa, 0⟩
  | .getdat a imm => ⟨commandWord 0x13 a 0 imm, 0, 0⟩
  | .setmrk a opa => ⟨commandWord 0x14 a 0 0, opa, 0⟩
  | .getmrk a => ⟨commandWord 0x15 a 0 0, 0, 0⟩
  | .setusr a opa => ⟨commandWord 0x16 a 0 0, opa, 0⟩
  | .getusr a => ⟨commandWord 0x17 a 0 0, 0, 0⟩
  | .setts a opa opb => ⟨commandWord 0x18 a 0 0, opa, opb⟩
  | .gettss a => ⟨commandWord 0x19 a 0 0, 0, 0⟩
  | .gettsn a => ⟨commandWord 0x1A a 0 0, 0, 0⟩
  | .tsval a => ⟨commandWord 0x1B a 0 0, 0, 0⟩
  | .fcopy a b => ⟨commandWord 0x1C a b 0, 0, 0⟩
  | .feq a b => ⟨commandWord 0x1D a b 0, 0, 0⟩
  | .getfmt a => ⟨commandWord 0x1E a 0 0, 0, 0⟩
  | .setid a opa => ⟨commandWord 0x20 a 0 0, opa, 0⟩
  | .getid a => ⟨commandWord 0x21 a 0 0, 0, 0⟩
  | .setdlc a imm => ⟨commandWord 0x22 a 0 imm, 0, 0⟩
  | .getdlc a => ⟨commandWord 0x23 a 0 0, 0, 0⟩
  | .isext a => ⟨commandWord 0x24 a 0 0, 0, 0⟩
  | .isrtr a => ⟨commandWord 0x25 a 0 0, 0, 0⟩
  | .isovr a => ⟨commandWord 0x26 a 0 0, 0, 0⟩
  | .setrtr a imm => ⟨commandWord 0x27 a 0 imm, 0, 0⟩
  | .setovr a imm => ⟨commandWord 0x28 a 0 imm, 0, 0⟩
  | .fclr a => ⟨commandWord 0x29 a 0 0, 0, 0⟩
  | .getctrl a => ⟨commandWord 0x2A a 0 0, 0, 0⟩
  | .serd a => ⟨commandWord 0x30 a 0 0, 0, 0⟩
  | .sera => ⟨commandWord 0x31 0 0 0, 0, 0⟩
  | .sere => ⟨commandWord 0x32 0 0 0, 0, 0⟩
  | .desd a => ⟨commandWord 0x34 a 0 0, 0, 0⟩
  | .desa => ⟨commandWord 0x35 0 0 0, 0, 0⟩
  | .dese => ⟨commandWord 0x36 0 0 0, 0, 0⟩
  | .bkind => ⟨commandWord 0x38 0 0 0, 0, 0⟩
  | .awr opa opb => ⟨commandWord 0x39 0 0 0, opa, opb⟩
  | .ard opa => ⟨commandWord 0x3A 0 0 0, opa, 0⟩
  | .ewr opa opb => ⟨commandWord 0x3B 0 0 0, opa, opb⟩
  | .erd opa => ⟨commandWord 0x3C 0 0 0, opa, 0⟩
  | .flapp a b opa opb => ⟨commandWord 0x40 a b 0, opa, opb⟩
  | .flrem opa => ⟨commandWord 0x41 0 0 0, opa, 0⟩
  | .flcnt => ⟨commandWord 0x42 0 0 0, 0, 0⟩
  | .fltest a => ⟨commandWord 0x43 a 0 0, 0, 0⟩
  | .tsadd a b => ⟨commandWord 0x50 a b 0, 0, 0⟩
  | .tssub a b => ⟨commandWord 0x51 a b 0, 0, 0⟩
  | .bufwr opa opb => ⟨commandWord 0x60 0 0 0, opa, opb⟩
  | .bufrd opa => ⟨commandWord 0x61 0 0 0, opa, 0⟩
  | .setblen opa => ⟨commandWord 0x62 0 0 0, opa, 0⟩
  | .getblen => ⟨commandWord 0x63 0 0 0, 0, 0⟩

/-- The opcode map of R87, row by row: its `match` and its `mask` column. -/
def opcodeMap : List (Word × Word) :=
  [(0x00000000, 0xFFFFFFFF), (0x01000000, 0xFFFFFFFF)] ++
  [(0x10000000, 0xFF00FF00), (0x11000000, 0xFF00FFFF), (0x12000000, 0xFF00FF00),
   (0x13000000, 0xFF00FF00), (0x14000000, 0xFF00FFFF), (0x15000000, 0xFF00FFFF),
   (0x16000000, 0xFF00FFFF), (0x17000000, 0xFF00FFFF), (0x18000000, 0xFF00FFFF),
   (0x19000000, 0xFF00FFFF), (0x1A000000, 0xFF00FFFF), (0x1B000000, 0xFF00FFFF),
   (0x1C000000, 0xFF0000FF), (0x1D000000, 0xFF0000FF), (0x1E000000, 0xFF00FFFF)] ++
  [(0x20000000, 0xFF00FFFF), (0x21000000, 0xFF00FFFF), (0x22000000, 0xFF00FF00),
   (0x23000000, 0xFF00FFFF), (0x24000000, 0xFF00FFFF), (0x25000000, 0xFF00FFFF),
   (0x26000000, 0xFF00FFFF), (0x27000000, 0xFF00FF00), (0x28000000, 0xFF00FF00),
   (0x29000000, 0xFF00FFFF), (0x2A000000, 0xFF00FFFF)] ++
  [(0x30000000, 0xFF00FFFF), (0x31000000, 0xFFFFFFFF), (0x32000000, 0xFFFFFFFF),
   (0x34000000, 0xFF00FFFF), (0x35000000, 0xFFFFFFFF), (0x36000000, 0xFFFFFFFF),
   (0x38000000, 0xFFFFFFFF), (0x39000000, 0xFFFFFFFF), (0x3A000000, 0xFFFFFFFF),
   (0x3B000000, 0xFFFFFFFF), (0x3C000000, 0xFFFFFFFF)] ++
  [(0x40000000, 0xFF0000FF), (0x41000000, 0xFFFFFFFF), (0x42000000, 0xFFFFFFFF),
   (0x43000000, 0xFF00FFFF)] ++
  [(0x50000000, 0xFF0000FF), (0x51000000, 0xFF0000FF)] ++
  [(0x60000000, 0xFFFFFFFF), (0x61000000, 0xFFFFFFFF), (0x62000000, 0xFFFFFFFF),
   (0x63000000, 0xFFFFFFFF)]

/-- The beat whose 96 bits are `w`: `CW` in bits 31..0, `OPA` in bits 63..32, `OPB` in bits 95..64
(notes/assumptions/16.md). The words come on three ports, so there is no byte order of a beat. -/
def beatOfBits (w : Nat) : Beat :=
  ⟨BitVec.ofNat 32 w, BitVec.ofNat 32 (w / 4294967296), BitVec.ofNat 32 (w / 18446744073709551616)⟩

/-- The beat of a table row of `nbits` bits: every bit at or above `nbits` is zero. -/
def tableBeat (nbits w : Nat) : Beat := beatOfBits (w % 2 ^ nbits)

/-- The command the decoder reads from a beat whose low `nbits` bits are `w`. -/
def decodeTableWord (nbits w : Nat) : Option Instr :=
  match decode (tableBeat nbits w) with
  | .ok i => some i
  | .error _ => none

end Sys2Proof
end

