-- ==== Sys2Proof/Config.lean ====
section
/-! DEFINITION. The implementation parameters of the block (spec/00_scope.md R7), as plain data that
the state carries and no step writes, so that every statement holds for every legal value. -/

namespace Sys2Proof

/-- The parameters of R7. `NSEC_LIMIT` is fixed and stands beside it as a constant. -/
structure Config where
  /-- `NFRAME`: number of data-frame registers. -/
  nframe : Nat
  /-- `NFILT`: capacity of the filter rule file. -/
  nfilt : Nat
  /-- `BUFSZ`: size of the byte buffer in bytes. -/
  bufsz : Nat
  /-- `API_LEN`: length of the opaque body of an API frame. OPEN in the spec. -/
  apiLen : Nat
  /-- `ERR_LEN`: length of the opaque body of an error frame. OPEN in the spec. -/
  errLen : Nat
  /-- `SECS_LIMIT`: largest valid seconds of a timestamp. OPEN in the spec; 32 bits by its type. -/
  secsLimit : Word
  /-- `TAG_DATA`: the discriminator of a data frame. -/
  tagData : Byte
  /-- `TAG_API`: the discriminator of an API frame. -/
  tagApi : Byte
  /-- `TAG_ERROR`: the discriminator of an error frame. -/
  tagError : Byte
  deriving DecidableEq, Repr

/-- `NSEC_LIMIT`, fixed by R7 and R31. -/
def nsecLimit : Nat := 999999999

/-- The constraints R7 puts on the parameters. The bound `BUFSZ <= 2^32 - 1` is DEDUCED from R38
(`BLEN` is a 32-bit register whose legal values reach `BUFSZ`); notes/assumptions/8.md. -/
abbrev Config.Legal (c : Config) : Prop :=
  (1 ≤ c.nframe ∧ c.nframe ≤ 256) ∧ (1 ≤ c.nfilt ∧ c.nfilt ≤ 4294967295) ∧
  (87 ≤ c.bufsz ∧ c.bufsz ≤ 4294967295) ∧
  1 + c.apiLen ≤ c.bufsz ∧ 1 + c.errLen ≤ c.bufsz ∧
  c.tagData ≠ c.tagApi ∧ c.tagData ≠ c.tagError ∧ c.tagApi ≠ c.tagError

/-- The values of R7's column "value", and for the three OPEN parameters the values the vectors of
spec/95_test_vectors.md use. DESIGN CHOICE for the OPEN three, notes/assumptions/2.md; unsafe only
for a statement that names `State.reset`. -/
def Config.vectors : Config where
  nframe := 4
  nfilt := 16
  bufsz := 96
  apiLen := 4
  errLen := 4
  secsLimit := 0xFFFFFFFF
  tagData := 0x00
  tagApi := 0x01
  tagError := 0x02

end Sys2Proof
end

