-- ==== Sys2Proof/Machine/State.lean ====
section
/-! DEFINITION. The state of the block (spec/10_state.md), the reasons a step can stop, and the state
after reset (R42). -/

namespace Sys2Proof.Machine

/-- A timestamp: the pair of R30. -/
structure Timestamp where
  sec : Word
  nsec : Word
  deriving DecidableEq, Repr

/-- One data-frame register `F[i]` (R21). `ctrl` is the control byte of R22; `data` is the whole
64-byte payload store, the hidden bytes (R36) among them. -/
structure Frame where
  ctrl : Byte
  id : Word
  dlc : BitVec 4
  data : Vector Byte 64
  marker : Word
  user : Word
  ts : Timestamp
  deriving DecidableEq, Repr

/-- One slot of the filter rule file (R35): policy 1 = ACCEPT, 0 = REJECT; `rfmt` 0..3 a frame
format, 4 = ANY; inclusive bounds, not masked. -/
structure Rule where
  policy : BitVec 1
  rfmt : BitVec 3
  low : Word
  high : Word
  deriving DecidableEq, Repr

/-- The response of a command (R80, R90): `OK` and `RV`. -/
structure Response where
  ok : Bool
  rv : Word
  deriving DecidableEq, Repr

/-- What the host does next on the port (R80, R250). -/
inductive PortEvent where
  /-- A command beat is transferred. -/
  | beat (b : Beat)
  /-- `rst` is asserted; `lost` is the beat whose command was in progress then, if any (R250). -/
  | rst (lost : Option Beat)
  deriving DecidableEq, Repr

/-- The state. The first field is the configuration, which no step writes (R7, R41); the next nine
are the block's own state, "exactly this list" (R20); the last two are the model's port (R39, R80). -/
structure State where
  /-- The implementation parameters (notes/assumptions/1.md). -/
  cfg : Config
  /-- `F[0..NFRAME-1]`. -/
  frames : List Frame
  /-- `A.body[0..API_LEN-1]` (R33). -/
  apiBody : List Byte
  /-- `E.body[0..ERR_LEN-1]` (R33). -/
  errBody : List Byte
  /-- `RULE[0..NFILT-1]`, the hidden slots at and above `FLCNT` among them (R34, R36). -/
  rules : List Rule
  /-- `FLCNT` (R38). -/
  flcnt : Word
  /-- `B[0..BUFSZ-1]` as address and byte pairs in canonical form; an unlisted byte is 0 (R42). -/
  buf : List Host.Cell
  /-- `BLEN` (R38). -/
  blen : Word
  /-- `STATUS` (R37): bit 0 is `ILL`. -/
  status : Word
  /-- The model's own: what the host does next on the port (R39, R41; notes/assumptions/3.md). -/
  host : List PortEvent
  /-- The model's own: the response port after the step, `none` when no response is given (R80). -/
  rsp : Option Response
  deriving DecidableEq, Repr

/-- Why a step stops with a fault. -/
inductive Fault where
  /-- `MemRead` or `MemWrite` of `n` bytes at `addr` with `addr + n > BUFSZ`, where R11 does not define
  it. Raised by SERD, SERA, SERE, DESD, DESA, DESE, BKIND, and only in states that R65 rules out (an
  illegal configuration, a `BLEN` above `BUFSZ`). Safe. -/
  | outsideBuffer (addr n : Nat)
  deriving DecidableEq, Repr

/-- Why a step is refused. -/
inductive Refusal where
  /-- The command has no meaning in the model. Raised by nothing: every command has its meaning. Safe. -/
  | notModelled (mnemonic : String)
  deriving DecidableEq, Repr

/-- What a step answers. -/
abbrev Result := Host.Outcome State Fault Refusal

/-- A frame register after reset: all zero, a cleared STD_CLASSIC frame (R42). -/
def Frame.zero : Frame where
  ctrl := 0
  id := 0
  dlc := 0
  data := Vector.replicate 64 0
  marker := 0
  user := 0
  ts := ⟨0, 0⟩

/-- A rule slot after reset: all fields 0 (R42). -/
def Rule.zero : Rule := ⟨0, 0, 0, 0⟩

/-- The reset values of R42 for the parameters `c`: every bit of state is zero. The port is silent
and the host has offered nothing. -/
def State.resetOf (c : Config) : State where
  cfg := c
  frames := List.replicate c.nframe Frame.zero
  apiBody := List.replicate c.apiLen 0
  errBody := List.replicate c.errLen 0
  rules := List.replicate c.nfilt Rule.zero
  flcnt := 0
  buf := []
  blen := 0
  status := 0
  host := []
  rsp := none

/-- The machine right after reset (R42, R250), with the parameter values of `Config.vectors`. -/
def State.reset : State := State.resetOf Config.vectors

end Sys2Proof.Machine
end

