-- ==== Sys2Proof/Machine/Flags.lean ====
section
/-! DEFINITION. Every flag of the block: the bits of a frame's control byte (spec/10_state.md R22,
R23, R28), `STATUS.ILL` (R37), and the validity predicate of a timestamp (R31). -/

namespace Sys2Proof.Machine

/-- `ctrl[1:0] = {FDF, EXT}`, the format code of R23. -/
def ctrlFmt (c : Byte) : BitVec 2 := c.extractLsb' 0 2

/-- Bit `k` of a control byte as a 32-bit value, `zext_32(ctrl[k])` (R145 to R147). -/
def ctrlBit (c : Byte) (k : Nat) : Word := (c.extractLsb' k 1).setWidth 32

/-- `ctrl[7:4]`, always 0 in a frame register (R22). -/
def ctrlReserved (c : Byte) : BitVec 4 := c.extractLsb' 4 4

/-- The position of `RTR` in `ctrl` (R22). -/
def rtrBit : Nat := 2

/-- The position of `OVR` in `ctrl` (R22). -/
def ovrBit : Nat := 3

/-- `ctrl[k] <- v`: write one bit of a control byte and no other (R148, R149). -/
def ctrlSetBit (c : Byte) (k : Nat) (v : BitVec 1) : Byte :=
  (c &&& ~~~(1#8 <<< k)) ||| (v.setWidth 8 <<< k)

/-- The control byte of a frame with the format `f` and no flag, `{0b000000, f}` (R111, R150). -/
def ctrlOfFmt (f : BitVec 2) : Byte := f.setWidth 8

/-- The format of a frame register (R23). -/
def Frame.fmt (f : Frame) : BitVec 2 := ctrlFmt f.ctrl

/-- What STAT reads: bit 0 is `ILL`, bits 31:1 read as 0 (R37, R221). -/
def statusRead (w : Word) : Word := w &&& 1#32

/-- `STATUS.ILL <- 1` (R232). -/
def statusSetIll (w : Word) : Word := w ||| 1#32

/-- `STATUS.ILL`. -/
def State.ill (s : State) : Bool := s.status.getLsbD 0

/-- `tsValid(s, n) = (s <= SECS_LIMIT) and (n <= NSEC_LIMIT)` (R31). -/
def tsValid (c : Config) (t : Timestamp) : Bool :=
  t.sec.toNat ≤ c.secsLimit.toNat && t.nsec.toNat ≤ nsecLimit

/-- A truth value as the `RV` of a predicate command: 1 = true, 0 = false (R90). -/
def boolWord (b : Bool) : Word := if b then 1 else 0

end Sys2Proof.Machine
end

