-- ==== Sys2Proof/Machine/Ops.lean ====
section
/-! DEFINITION. The named operations over the byte buffer and the registers, the responses, and
`illegal()`, the one exception-like operation the block has (spec/60_exceptions.md R230, R232, R236:
no trap is entered, nothing is saved, and there is no return). -/

namespace Sys2Proof.Machine

/-! The byte buffer (spec/20_memory.md). -/

/-- The byte at an address; an unlisted address reads as 0, its reset value (R42). -/
def Memory.read : List Host.Cell → Nat → Byte
  | [], _ => 0
  | (k, v) :: m, a => if k = a then v else Memory.read m a

/-- Write one byte, keeping the canonical form: a 0 is not listed. -/
def Memory.write : List Host.Cell → Nat → Byte → List Host.Cell
  | [], a, v => if v = 0 then [] else [(a, v)]
  | (k, w) :: m, a, v =>
    if a < k then (if v = 0 then (k, w) :: m else (a, v) :: (k, w) :: m)
    else if a = k then (if v = 0 then m else (a, v) :: m)
    else (k, w) :: Memory.write m a v

/-- Write a list of bytes, the first at the lowest address (R11 `MemWrite`). -/
def Memory.writeList : List Host.Cell → Nat → List Byte → List Host.Cell
  | m, _, [] => m
  | m, a, v :: l => Memory.writeList (Memory.write m a v) (a + 1) l

/-- The `n` bytes from `a` on, lowest address first (R11 `MemRead`). -/
def Memory.readList (m : List Host.Cell) (a n : Nat) : List Byte :=
  (List.range n).map fun k => Memory.read m (a + k)

/-- The canonical form: addresses strictly rising, and no entry that holds the unlisted value 0. -/
abbrev Memory.wf (m : List Host.Cell) : Prop :=
  m.Pairwise (fun c d => c.1 < d.1) ∧ ∀ c ∈ m, c.2 ≠ 0

/-- Byte `k` of a list of bytes that is known to be long enough; 0 past its end. -/
def byteOf (l : List Byte) (k : Nat) : Byte := l.getD k 0

/-- `be32(v)`: most significant byte first (R11, R62). -/
def be32 (v : Word) : List Byte :=
  [v.extractLsb' 24 8, v.extractLsb' 16 8, v.extractLsb' 8 8, v.extractLsb' 0 8]

/-- `unbe32(l)` of the first four bytes of `l`, `l[0]` most significant (R11, R62). -/
def unbe32 (l : List Byte) : Word := byteOf l 0 ++ byteOf l 1 ++ byteOf l 2 ++ byteOf l 3

/-! Frame registers (spec/10_state.md). -/

/-- The identifier mask of a format (R24), chosen by `fmt[0]`. -/
def idMask (f : BitVec 2) : Word := if f.getLsbD 0 then 0x1FFFFFFF else 0x000007FF

/-- `FDTAB` of R112, indexed by the DLC. -/
def fdTable : List Nat := [0, 1, 2, 3, 4, 5, 6, 7, 8, 12, 16, 20, 24, 32, 48, 64]

/-- `dataSize(fmt, dlc)` of R112: the table for FD formats (`fmt[1]`), else `min(dlc, 8)`. -/
def dataSize (f : BitVec 2) (d : BitVec 4) : Nat :=
  if f.getLsbD 1 then fdTable.getD d.toNat 0 else min d.toNat 8

/-- The resolved payload size of a frame register. -/
def Frame.size (f : Frame) : Nat := dataSize f.fmt f.dlc

/-- Byte `k` of the payload store. -/
def Frame.byte (f : Frame) (k : Nat) : Byte := (f.data[k]?).getD 0

/-- `data[k] <- v`. -/
def Frame.setByte (f : Frame) (k : Nat) (v : Byte) : Frame :=
  { f with data := f.data.setIfInBounds k v }

/-- The visible payload `data[0 .. n-1]` (R27). -/
def Frame.payload (f : Frame) : List Byte := f.data.toList.take f.size

/-- A payload store that holds `l` and 0 from its end on (R166). -/
def storeOf (l : List Byte) : Vector Byte 64 := Vector.ofFn fun k => byteOf l k.val

/-- A frame with the given format and identifier and everything else zero (R111, R150): the
identifier is masked to the format on entry (R25). -/
def freshFrame (f : BitVec 2) (v : Word) : Frame :=
  { Frame.zero with ctrl := ctrlOfFmt f, id := v &&& idMask f }

/-- Register `F[a]`. -/
def State.frame (s : State) (a : Byte) : Frame := s.frames.getD a.toNat Frame.zero

/-- `F[a] <- f`. -/
def State.setFrame (s : State) (a : Byte) (f : Frame) : State :=
  { s with frames := s.frames.set a.toNat f }

/-! Responses (spec/30_encoding.md R90). -/

/-- The response carries `OK = ok` and `RV = rv`. -/
def State.respond (s : State) (ok : Bool) (rv : Word) : State := { s with rsp := some ⟨ok, rv⟩ }

/-- `respond(1, rv)`: the command was carried out. -/
def State.done (s : State) (rv : Word) : Result := .next (s.respond true rv)

/-- `respond(0, 0)`: a value failure, which changes no state (R90). -/
def State.fail (s : State) : Result := .next (s.respond false 0)

/-- `illegal()` (R232): `STATUS.ILL <- 1; respond(0, 0)`, nothing else changes, and the block goes on
to accept the next beat. -/
def State.illegal (s : State) : Result :=
  .next { s with status := statusSetIll s.status, rsp := some ⟨false, 0⟩ }

/-! Buffer access of the serializer (spec/20_memory.md R61, R65, R68). -/

/-- `MemWrite(addr, bytes.length, bytes)`, defined when it ends inside the buffer (R11). -/
def State.memWrite (s : State) (addr : Nat) (bytes : List Byte) (k : State → Result) : Result :=
  if addr + bytes.length ≤ s.cfg.bufsz then
    k { s with buf := Memory.writeList s.buf addr bytes }
  else .fault (.outsideBuffer addr bytes.length)

/-- `MemRead(addr, n)`, defined when it ends inside the buffer (R11). -/
def State.memRead (s : State) (addr n : Nat) (k : List Byte → Result) : Result :=
  if addr + n ≤ s.cfg.bufsz then k (Memory.readList s.buf addr n)
  else .fault (.outsideBuffer addr n)

/-- Store an image at offset 0, set `BLEN` to its length and answer the length (R162 to R164). -/
def State.storeImage (s : State) (image : List Byte) : Result :=
  s.memWrite 0 image fun t =>
    ({ t with blen := BitVec.ofNat 32 image.length } : State).done (BitVec.ofNat 32 image.length)

/-- The valid bytes `B[0 .. BLEN-1]`, all that DES* and BKIND look at (R68, R160). -/
def State.validBytes (s : State) (k : List Byte → Result) : Result := s.memRead 0 s.blen.toNat k

/-! Images (spec/20_memory.md R66, R67). -/

/-- The image of a data frame: the nine fields in the order of R66. -/
def dataImage (c : Config) (f : Frame) : List Byte :=
  [c.tagData] ++ [f.ctrl] ++ [f.dlc.setWidth 8] ++ be32 f.id ++ f.payload ++
    be32 f.marker ++ be32 f.user ++ be32 f.ts.sec ++ be32 f.ts.nsec

/-- The image of an API or an error frame: the tag, then the opaque body (R67). -/
def bodyImage (tag : Byte) (body : List Byte) : List Byte := tag :: body

/-- The frame that the valid bytes `l` carry, or none (R166); the checks in the order of the rule. -/
def parseData (c : Config) (l : List Byte) : Option Frame :=
  if l.length < 1 then none
  else if byteOf l 0 ≠ c.tagData then none
  else if l.length < 23 then none
  else if ctrlReserved (byteOf l 1) ≠ 0 then none
  else if 15 < (byteOf l 2).toNat then none
  else
    let f := ctrlFmt (byteOf l 1)
    let d := (byteOf l 2).extractLsb' 0 4
    let n := dataSize f d
    if l.length < 23 + n then none
    else some
      { ctrl := byteOf l 1
        dlc := d
        id := unbe32 (l.drop 3) &&& idMask f
        data := storeOf ((l.drop 7).take n)
        marker := unbe32 (l.drop (7 + n))
        user := unbe32 (l.drop (11 + n))
        ts := ⟨unbe32 (l.drop (15 + n)), unbe32 (l.drop (19 + n))⟩ }

/-- The body of `len` bytes that the valid bytes `l` carry after the tag `tag`, or none (R167, R168). -/
def parseBody (tag : Byte) (len : Nat) (l : List Byte) : Option (List Byte) :=
  if l.length < 1 then none
  else if byteOf l 0 ≠ tag then none
  else if l.length < 1 + len then none
  else some ((l.drop 1).take len)

/-! The filter rule file (spec/43_filter.md). -/

/-- `hit(r, f)` (R190): unsigned comparisons, `rfmt = 4` is ANY. -/
def Rule.hits (r : Rule) (f : Frame) : Bool :=
  (r.rfmt.toNat == 4 || r.rfmt.toNat == f.fmt.toNat) &&
    (r.low.toNat ≤ f.id.toNat && f.id.toNat ≤ r.high.toNat)

/-- The FilterList, `RULE[0 .. FLCNT-1]` (R34). -/
def State.ruleList (s : State) : List Rule := s.rules.take s.flcnt.toNat

/-- The verdict on a frame (R194): 0 by default (R196), a later hit overrides (R195). -/
def verdict (rules : List Rule) (f : Frame) : BitVec 1 :=
  rules.foldl (fun v r => if r.hits f then r.policy else v) 0

/-- `RULE[FLCNT] <- r; FLCNT <- FLCNT + 1` (R191). -/
def State.appendRule (s : State) (r : Rule) : State :=
  { s with rules := s.rules.set s.flcnt.toNat r, flcnt := s.flcnt + 1 }

/-- `RULE[k] <- RULE[k+1]` for `k = i .. cnt-2`; every other slot keeps its content (R192). -/
def closeGap (rules : List Rule) (i cnt : Nat) : List Rule :=
  rules.mapIdx fun k r => if i ≤ k ∧ k + 1 < cnt then rules.getD (k + 1) r else r

/-- Close the gap at `i` and count one rule less (R192). -/
def State.removeRule (s : State) (i : Nat) : State :=
  { s with rules := closeGap s.rules i s.flcnt.toNat, flcnt := s.flcnt - 1 }

/-! Timestamps (spec/44_timestamp.md). -/

/-- `INVALID_TS` (R32). -/
def invalidTs : Timestamp := ⟨0xFFFFFFFF, 0xFFFFFFFF⟩

/-- `min(v, limit)` of a 32-bit value (R121, R128). -/
def capAt (v : Word) (limit : Nat) : Word := if v.toNat ≤ limit then v else BitVec.ofNat 32 limit

/-- The sum of R212, computed in natural numbers, or `INVALID_TS`. -/
def tsAdd (c : Config) (x y : Timestamp) : Timestamp :=
  if !tsValid c x || !tsValid c y then invalidTs
  else
    let n := x.nsec.toNat + y.nsec.toNat
    let carry := if 999999999 < n then 1 else 0
    let s := x.sec.toNat + y.sec.toNat + carry
    if c.secsLimit.toNat < s then invalidTs
    else ⟨BitVec.ofNat 32 s, BitVec.ofNat 32 (n - carry * 1000000000)⟩

/-- The difference of R213, or `INVALID_TS`. -/
def tsSub (c : Config) (x y : Timestamp) : Timestamp :=
  if !tsValid c x || !tsValid c y then invalidTs
  else if x.sec.toNat < y.sec.toNat ∨ (x.sec.toNat = y.sec.toNat ∧ x.nsec.toNat < y.nsec.toNat) then
    invalidTs
  else if y.nsec.toNat ≤ x.nsec.toNat then
    ⟨BitVec.ofNat 32 (x.sec.toNat - y.sec.toNat), BitVec.ofNat 32 (x.nsec.toNat - y.nsec.toNat)⟩
  else
    ⟨BitVec.ofNat 32 (x.sec.toNat - y.sec.toNat - 1),
     BitVec.ofNat 32 (x.nsec.toNat + 1000000000 - y.nsec.toNat)⟩

/-- Equality of two frames by value (R126): hidden bytes do not count. -/
def frameEq (f g : Frame) : Bool :=
  f.ctrl == g.ctrl && f.id == g.id && f.dlc == g.dlc &&
    f.data.toList.take f.size == g.data.toList.take f.size &&
    f.marker == g.marker && f.user == g.user && f.ts.sec == g.ts.sec && f.ts.nsec == g.ts.nsec

end Sys2Proof.Machine
end

