-- ==== Sys2Proof/Machine/Operands.lean ====
section
/-! DEFINITION. The operand forms of a command (spec/30_encoding.md R83): frame indices with the check
of R86, the immediate, and the byte operand carried in an operand word. -/

namespace Sys2Proof.Machine

/-- The byte operand of an operand word: its low byte, the upper 24 bits are ignored (R83). -/
def lowByte (v : Word) : Byte := v.extractLsb' 0 8

/-- A byte as a 32-bit value, `zext_32` (R83). -/
def byteWord (v : Byte) : Word := v.setWidth 32

/-- The immediate as a DLC code, `imm[3:0]` (R143). -/
def immDlc (imm : Byte) : BitVec 4 := imm.extractLsb' 0 4

/-- The immediate as a format code, `imm[1:0]` (R111). -/
def immFmt (imm : Byte) : BitVec 2 := imm.extractLsb' 0 2

/-- The immediate as a flag, `imm[0]` (R148, R149). -/
def immFlag (imm : Byte) : BitVec 1 := imm.extractLsb' 0 1

/-- Use a field as a frame index: `a >= NFRAME` makes the beat illegal (R86). -/
def State.withFrame (s : State) (a : Byte) (k : Frame → Result) : Result :=
  if a.toNat < s.cfg.nframe then k (s.frame a) else s.illegal

/-- Two frame indices, `a` checked before `b` (R86, R234). -/
def State.withFrames (s : State) (a b : Byte) (k : Frame → Frame → Result) : Result :=
  s.withFrame a fun f => s.withFrame b fun g => k f g

/-- A command that answers a value read from one frame register and changes nothing. -/
def State.readFrame (s : State) (a : Byte) (g : Frame → Word) : Result :=
  s.withFrame a fun f => s.done (g f)

/-- A command that rewrites one frame register, cannot fail and answers 0. -/
def State.updateFrame (s : State) (a : Byte) (g : Frame → Frame) : Result :=
  s.withFrame a fun f => (s.setFrame a (g f)).done 0

end Sys2Proof.Machine
end

