-- ==== Sys2Proof/Machine/BitCodec.lean ====
section
/-! DEFINITION. The bit-layout codec commands (spec/41_bit_codec.md). -/

namespace Sys2Proof.Machine

/-- SETID (R141): truncated to the frame's own format, never refused. -/
def execSetid (a : Byte) (opa : Word) (s : State) : Result :=
  s.updateFrame a fun f => { f with id := opa &&& idMask f.fmt }

/-- GETID (R142). -/
def execGetid (a : Byte) (s : State) : Result := s.readFrame a fun f => f.id

/-- SETDLC (R143): stored as written, 0 to 15, in every format. -/
def execSetdlc (a imm : Byte) (s : State) : Result :=
  s.withFrame a fun f =>
    if 15 < imm.toNat then s.fail
    else (s.setFrame a { f with dlc := immDlc imm }).done 0

/-- GETDLC (R144). -/
def execGetdlc (a : Byte) (s : State) : Result := s.readFrame a fun f => f.dlc.setWidth 32

/-- ISEXT (R145). -/
def execIsext (a : Byte) (s : State) : Result := s.readFrame a fun f => ctrlBit f.ctrl 0

/-- ISRTR (R146). -/
def execIsrtr (a : Byte) (s : State) : Result := s.readFrame a fun f => ctrlBit f.ctrl rtrBit

/-- ISOVR (R147). -/
def execIsovr (a : Byte) (s : State) : Result := s.readFrame a fun f => ctrlBit f.ctrl ovrBit

/-- SETRTR (R148). -/
def execSetrtr (a imm : Byte) (s : State) : Result :=
  s.withFrame a fun f =>
    if 1 < imm.toNat then s.fail
    else (s.setFrame a { f with ctrl := ctrlSetBit f.ctrl rtrBit (immFlag imm) }).done 0

/-- SETOVR (R149). -/
def execSetovr (a imm : Byte) (s : State) : Result :=
  s.withFrame a fun f =>
    if 1 < imm.toNat then s.fail
    else (s.setFrame a { f with ctrl := ctrlSetBit f.ctrl ovrBit (immFlag imm) }).done 0

/-- FCLR (R150): everything to zero, then the frame's own format tag put back. -/
def execFclr (a : Byte) (s : State) : Result :=
  s.updateFrame a fun f => freshFrame f.fmt 0

/-- GETCTRL (R151). -/
def execGetctrl (a : Byte) (s : State) : Result := s.readFrame a fun f => byteWord f.ctrl

end Sys2Proof.Machine
end

