-- ==== Sys2Proof/Machine/Filter.lean ====
section
/-! DEFINITION. The identifier filter commands (spec/43_filter.md). -/

namespace Sys2Proof.Machine

/-- FLAPP (R191): `a` is the policy, `b` the rule format; the checks in the order of the rule. -/
def execFlapp (a b : Byte) (opa opb : Word) (s : State) : Result :=
  if 1 < a.toNat then s.fail
  else if 4 < b.toNat then s.fail
  else if opb.toNat < opa.toNat then s.fail
  else if s.flcnt.toNat = s.cfg.nfilt then s.fail
  else (s.appendRule ⟨a.extractLsb' 0 1, b.extractLsb' 0 3, opa, opb⟩).done s.flcnt

/-- FLREM (R192). -/
def execFlrem (opa : Word) (s : State) : Result :=
  if s.flcnt.toNat ≤ opa.toNat then s.fail
  else (s.removeRule opa.toNat).done 0

/-- FLCNT (R193). -/
def execFlcnt (s : State) : Result := s.done s.flcnt

/-- FLTEST (R194). -/
def execFltest (a : Byte) (s : State) : Result :=
  s.readFrame a fun f => (verdict s.ruleList f).setWidth 32

end Sys2Proof.Machine
end

