-- ==== Sys2Proof/Machine/FrameModel.lean ====
section
/-! DEFINITION. The frame model commands (spec/40_frame_model.md). -/

namespace Sys2Proof.Machine

/-- FINIT (R111). -/
def execFinit (a imm : Byte) (opa : Word) (s : State) : Result :=
  s.withFrame a fun _ =>
    if 3 < imm.toNat then s.fail
    else (s.setFrame a (freshFrame (immFmt imm) opa)).done 0

/-- DSIZE (R113). -/
def execDsize (a : Byte) (s : State) : Result :=
  s.readFrame a fun f => BitVec.ofNat 32 f.size

/-- SETDAT (R114): beyond the resolved size nothing is stored. -/
def execSetdat (a imm : Byte) (opa : Word) (s : State) : Result :=
  s.withFrame a fun f =>
    if f.size ≤ imm.toNat then s.fail
    else (s.setFrame a (f.setByte imm.toNat (lowByte opa))).done 0

/-- GETDAT (R115). -/
def execGetdat (a imm : Byte) (s : State) : Result :=
  s.withFrame a fun f =>
    if f.size ≤ imm.toNat then s.fail
    else s.done (byteWord (f.byte imm.toNat))

/-- SETMRK (R116). -/
def execSetmrk (a : Byte) (opa : Word) (s : State) : Result :=
  s.updateFrame a fun f => { f with marker := opa }

/-- GETMRK (R117). -/
def execGetmrk (a : Byte) (s : State) : Result := s.readFrame a fun f => f.marker

/-- SETUSR (R118). -/
def execSetusr (a : Byte) (opa : Word) (s : State) : Result :=
  s.updateFrame a fun f => { f with user := opa }

/-- GETUSR (R119). -/
def execGetusr (a : Byte) (s : State) : Result := s.readFrame a fun f => f.user

/-- SETTS (R121): each component is capped at its limit. -/
def execSetts (a : Byte) (opa opb : Word) (s : State) : Result :=
  s.updateFrame a fun f =>
    { f with ts := ⟨capAt opa s.cfg.secsLimit.toNat, capAt opb nsecLimit⟩ }

/-- GETTSS (R122). -/
def execGettss (a : Byte) (s : State) : Result := s.readFrame a fun f => f.ts.sec

/-- GETTSN (R123). -/
def execGettsn (a : Byte) (s : State) : Result := s.readFrame a fun f => f.ts.nsec

/-- TSVAL (R124). -/
def execTsval (a : Byte) (s : State) : Result :=
  s.readFrame a fun f => boolWord (tsValid s.cfg f.ts)

/-- FCOPY (R125): the whole register, the hidden bytes included. -/
def execFcopy (a b : Byte) (s : State) : Result :=
  s.withFrames a b fun _ g => (s.setFrame a g).done 0

/-- FEQ (R126). -/
def execFeq (a b : Byte) (s : State) : Result :=
  s.withFrames a b fun f g => s.done (boolWord (frameEq f g))

/-- GETFMT (R127). -/
def execGetfmt (a : Byte) (s : State) : Result := s.readFrame a fun f => f.fmt.setWidth 32

end Sys2Proof.Machine
end

