-- ==== Sys2Proof/Machine/Serializer.lean ====
section
/-! DEFINITION. The serializer commands (spec/42_serializer.md). -/

namespace Sys2Proof.Machine

/-- SERD (R162). -/
def execSerd (a : Byte) (s : State) : Result :=
  s.withFrame a fun f => s.storeImage (dataImage s.cfg f)

/-- SERA (R163). -/
def execSera (s : State) : Result := s.storeImage (bodyImage s.cfg.tagApi s.apiBody)

/-- SERE (R164). -/
def execSere (s : State) : Result := s.storeImage (bodyImage s.cfg.tagError s.errBody)

/-- DESD (R166): on a failure nothing changes (R165); else the whole register is written and the
number of bytes taken is answered. -/
def execDesd (a : Byte) (s : State) : Result :=
  s.withFrame a fun _ => s.validBytes fun l =>
    match parseData s.cfg l with
    | none => s.fail
    | some f => (s.setFrame a f).done (BitVec.ofNat 32 (23 + f.size))

/-- DESA (R167). -/
def execDesa (s : State) : Result :=
  s.validBytes fun l =>
    match parseBody s.cfg.tagApi s.cfg.apiLen l with
    | none => s.fail
    | some body => ({ s with apiBody := body } : State).done (BitVec.ofNat 32 (1 + s.cfg.apiLen))

/-- DESE (R168). -/
def execDese (s : State) : Result :=
  s.validBytes fun l =>
    match parseBody s.cfg.tagError s.cfg.errLen l with
    | none => s.fail
    | some body => ({ s with errBody := body } : State).done (BitVec.ofNat 32 (1 + s.cfg.errLen))

/-- BKIND (R169): one byte is looked at; the kind codes are 0, 1, 2 whatever the tags are. -/
def execBkind (s : State) : Result :=
  s.validBytes fun l =>
    if l.length < 1 then s.fail
    else if byteOf l 0 = s.cfg.tagData then s.done 0
    else if byteOf l 0 = s.cfg.tagApi then s.done 1
    else if byteOf l 0 = s.cfg.tagError then s.done 2
    else s.fail

/-- AWR (R170). -/
def execAwr (opa opb : Word) (s : State) : Result :=
  if s.cfg.apiLen ≤ opa.toNat then s.fail
  else ({ s with apiBody := s.apiBody.set opa.toNat (lowByte opb) } : State).done 0

/-- ARD (R171). -/
def execArd (opa : Word) (s : State) : Result :=
  if s.cfg.apiLen ≤ opa.toNat then s.fail
  else s.done (byteWord (byteOf s.apiBody opa.toNat))

/-- EWR (R172). -/
def execEwr (opa opb : Word) (s : State) : Result :=
  if s.cfg.errLen ≤ opa.toNat then s.fail
  else ({ s with errBody := s.errBody.set opa.toNat (lowByte opb) } : State).done 0

/-- ERD (R173). -/
def execErd (opa : Word) (s : State) : Result :=
  if s.cfg.errLen ≤ opa.toNat then s.fail
  else s.done (byteWord (byteOf s.errBody opa.toNat))

end Sys2Proof.Machine
end

