-- ==== Sys2Proof/Machine/System.lean ====
section
/-! DEFINITION. The system and buffer access commands (spec/45_system_buffer.md). -/

namespace Sys2Proof.Machine

/-- NOP (R220). -/
def execNop (s : State) : Result := s.done 0

/-- STAT (R221). -/
def execStat (s : State) : Result := s.done (statusRead s.status)

/-- BUFWR (R222): any offset below `BUFSZ`; `BLEN` is not changed. -/
def execBufwr (opa opb : Word) (s : State) : Result :=
  if s.cfg.bufsz ≤ opa.toNat then s.fail
  else s.memWrite opa.toNat [lowByte opb] fun t => t.done 0

/-- BUFRD (R223): any offset below `BUFSZ`, whatever `BLEN` is. -/
def execBufrd (opa : Word) (s : State) : Result :=
  if s.cfg.bufsz ≤ opa.toNat then s.fail
  else s.done (byteWord (Memory.read s.buf opa.toNat))

/-- SETBLEN (R224). -/
def execSetblen (opa : Word) (s : State) : Result :=
  if s.cfg.bufsz < opa.toNat then s.fail
  else ({ s with blen := opa } : State).done 0

/-- GETBLEN (R225). -/
def execGetblen (s : State) : Result := s.done s.blen

end Sys2Proof.Machine
end

