-- ==== Sys2Proof/Machine/TimeArith.lean ====
section
/-! DEFINITION. The timestamp arithmetic commands (spec/44_timestamp.md). -/

namespace Sys2Proof.Machine

/-- Write the result of a timestamp operation and answer its validity (R212, R213). -/
def State.putTs (s : State) (a : Byte) (f : Frame) (r : Timestamp) : Result :=
  (s.setFrame a { f with ts := r }).done (if r = invalidTs then 0 else 1)

/-- TSADD (R212): both operands are read before the write. -/
def execTsadd (a b : Byte) (s : State) : Result :=
  s.withFrames a b fun f g => s.putTs a f (tsAdd s.cfg f.ts g.ts)

/-- TSSUB (R213). -/
def execTssub (a b : Byte) (s : State) : Result :=
  s.withFrames a b fun f g => s.putTs a f (tsSub s.cfg f.ts g.ts)

end Sys2Proof.Machine
end

