-- ==== Sys2Proof/Machine/Dispatch.lean ====
section
/-! DEFINITION. The one match over the commands: each arm calls its own meaning. -/

namespace Sys2Proof.Machine

def exec (i : Instr) (s : State) : Host.Outcome State Fault Refusal :=
  match i with
  | .nop => Sys2Proof.Machine.execNop s
  | .stat => Sys2Proof.Machine.execStat s
  | .finit a imm opa => Sys2Proof.Machine.execFinit a imm opa s
  | .dsize a => Sys2Proof.Machine.execDsize a s
  | .setdat a imm opa => Sys2Proof.Machine.execSetdat a imm opa s
  | .getdat a imm => Sys2Proof.Machine.execGetdat a imm s
  | .setmrk a opa => Sys2Proof.Machine.execSetmrk a opa s
  | .getmrk a => Sys2Proof.Machine.execGetmrk a s
  | .setusr a opa => Sys2Proof.Machine.execSetusr a opa s
  | .getusr a => Sys2Proof.Machine.execGetusr a s
  | .setts a opa opb => Sys2Proof.Machine.execSetts a opa opb s
  | .gettss a => Sys2Proof.Machine.execGettss a s
  | .gettsn a => Sys2Proof.Machine.execGettsn a s
  | .tsval a => Sys2Proof.Machine.execTsval a s
  | .fcopy a b => Sys2Proof.Machine.execFcopy a b s
  | .feq a b => Sys2Proof.Machine.execFeq a b s
  | .getfmt a => Sys2Proof.Machine.execGetfmt a s
  | .setid a opa => Sys2Proof.Machine.execSetid a opa s
  | .getid a => Sys2Proof.Machine.execGetid a s
  | .setdlc a imm => Sys2Proof.Machine.execSetdlc a imm s
  | .getdlc a => Sys2Proof.Machine.execGetdlc a s
  | .isext a => Sys2Proof.Machine.execIsext a s
  | .isrtr a => Sys2Proof.Machine.execIsrtr a s
  | .isovr a => Sys2Proof.Machine.execIsovr a s
  | .setrtr a imm => Sys2Proof.Machine.execSetrtr a imm s
  | .setovr a imm => Sys2Proof.Machine.execSetovr a imm s
  | .fclr a => Sys2Proof.Machine.execFclr a s
  | .getctrl a => Sys2Proof.Machine.execGetctrl a s
  | .serd a => Sys2Proof.Machine.execSerd a s
  | .sera => Sys2Proof.Machine.execSera s
  | .sere => Sys2Proof.Machine.execSere s
  | .desd a => Sys2Proof.Machine.execDesd a s
  | .desa => Sys2Proof.Machine.execDesa s
  | .dese => Sys2Proof.Machine.execDese s
  | .bkind => Sys2Proof.Machine.execBkind s
  | .awr opa opb => Sys2Proof.Machine.execAwr opa opb s
  | .ard opa => Sys2Proof.Machine.execArd opa s
  | .ewr opa opb => Sys2Proof.Machine.execEwr opa opb s
  | .erd opa => Sys2Proof.Machine.execErd opa s
  | .flapp a b opa opb => Sys2Proof.Machine.execFlapp a b opa opb s
  | .flrem opa => Sys2Proof.Machine.execFlrem opa s
  | .flcnt => Sys2Proof.Machine.execFlcnt s
  | .fltest a => Sys2Proof.Machine.execFltest a s
  | .tsadd a b => Sys2Proof.Machine.execTsadd a b s
  | .tssub a b => Sys2Proof.Machine.execTssub a b s
  | .bufwr opa opb => Sys2Proof.Machine.execBufwr opa opb s
  | .bufrd opa => Sys2Proof.Machine.execBufrd opa s
  | .setblen opa => Sys2Proof.Machine.execSetblen opa s
  | .getblen => Sys2Proof.Machine.execGetblen s

end Sys2Proof.Machine
end

