-- ==== Sys2Proof/Machine/Port.lean ====
section
/-! DEFINITION. The port: what the block does with the host's next event (spec/30_encoding.md R80, R84,
R85; spec/70_reset_and_hazards.md R250). -/

namespace Sys2Proof.Machine

/-- Serve one command beat: decode it, and execute the command or answer `illegal()` (R84, R85). -/
def serveBeat (b : Beat) (s : State) : Result :=
  match decode b with
  | .ok i => exec i s
  | .error _ => s.illegal

/-- `rst` asserted (R250): every piece of the block's state at its reset value, no response given. The
parameters are fixed at build time (R38) and what the host does next is the host's. -/
def serveReset (s : State) : State := { State.resetOf s.cfg with host := s.host }

/-- Nothing offered: the block is idle and keeps all state (R242), and no response is given. -/
def serveNothing (s : State) : State := { s with rsp := none }

/-- Serve the host's next event, in issue order (R9, R70). -/
def servePort (s : State) : Result :=
  match s.host with
  | [] => .next (serveNothing s)
  | .beat b :: rest => serveBeat b { s with host := rest }
  | .rst _ :: rest => .next (serveReset { s with host := rest })

/-- The host offers a beat before everything else it was going to do. -/
def State.offer (s : State) (b : Beat) : State := { s with host := .beat b :: s.host }

end Sys2Proof.Machine
end

