-- ==== Sys2Proof/Machine/Step.lean ====
section
/-! DEFINITION. One step of the machine: one event of the port, served to completion (spec/00_scope.md
R9). The block has no program counter and fetches nothing (spec/10_state.md R39). -/

namespace Sys2Proof.Machine

/-- One step. -/
def step (s : State) : Host.Outcome State Fault Refusal := servePort s

/-- The state in which the very next step runs the command whose table bits are `w`: the host offers
that beat (notes/assumptions/3.md). -/
def State.withFetchWord (s : State) (nbits w : Nat) : State := s.offer (tableBeat nbits w)

end Sys2Proof.Machine
end

