-- ==== Sys2Proof/Machine/HostRun.lean ====
section
/-! DEFINITION. A host that chooses its next beat from the responses so far (spec/30_encoding.md R93). -/

namespace Sys2Proof.Machine

/-- The port as a function (R80): one beat in, the state with its response out. -/
def transact (b : Beat) (s : State) : Result := step (s.offer b)

/-- Run a host for at most `n` beats: `choose` is its decision function from the responses so far to
the next beat, `none` when it has none left (R93). The answer is the state and all responses. -/
def runHost (choose : List Response → Option Beat) :
    Nat → List Response → State → Host.Outcome (State × List Response) Fault Refusal
  | 0, past, s => .next (s, past)
  | n + 1, past, s =>
    match choose past with
    | none => .next (s, past)
    | some b =>
      match transact b s with
      | .next t => runHost choose n (past ++ t.rsp.toList) t
      | .fault r => .fault r
      | .refused r => .refused r

end Sys2Proof.Machine
end

