-- ==== Sys2Proof/WellFormed.lean ====
section
/-! DEFINITION. Well-formed commands: every frame index names a register (spec/30_encoding.md R86).
Every other operand is in range by its type; the value checks of a command are part of its meaning. -/

namespace Sys2Proof

/-- The frame indices of a command, in the order R234 checks them. FLAPP's `a` and `b` are not
indices (R86). -/
def Instr.frameIndices : Instr → List Byte
  | .nop | .stat => []
  | .finit a _ _ | .dsize a | .setdat a _ _ | .getdat a _ => [a]
  | .setmrk a _ | .getmrk a | .setusr a _ | .getusr a => [a]
  | .setts a _ _ | .gettss a | .gettsn a | .tsval a => [a]
  | .fcopy a b | .feq a b => [a, b]
  | .getfmt a | .setid a _ | .getid a | .setdlc a _ | .getdlc a => [a]
  | .isext a | .isrtr a | .isovr a | .setrtr a _ | .setovr a _ => [a]
  | .fclr a | .getctrl a | .serd a => [a]
  | .sera | .sere => []
  | .desd a => [a]
  | .desa | .dese | .bkind | .awr _ _ | .ard _ | .ewr _ _ | .erd _ => []
  | .flapp _ _ _ _ | .flrem _ | .flcnt => []
  | .fltest a => [a]
  | .tsadd a b | .tssub a b => [a, b]
  | .bufwr _ _ | .bufrd _ | .setblen _ | .getblen => []

/-- R86: every frame index is below `NFRAME`. -/
abbrev Instr.WellFormed (c : Config) (i : Instr) : Prop :=
  ∀ k ∈ i.frameIndices, k.toNat < c.nframe

end Sys2Proof
end

