-- ==== Sys2Proof/Safety.lean ====
section
/-! DEFINITION. The terms claims are stated in: the invariants of every reachable state
(spec/10_state.md R44, R20), and what it means that nothing but one frame register changed. -/

namespace Sys2Proof.Machine

/-- R44 (1) and (2): the identifier is stored masked to the format, and `ctrl[7:4]` is zero. R44 (3)
and (4) hold by the types and by the definition of `dataSize`. -/
abbrev Frame.Inv (f : Frame) : Prop := f.id &&& idMask f.fmt = f.id ∧ f.ctrl.toNat < 16

/-- R44 (6): the range is not empty and the format code is one of 0 to 4. -/
abbrev Rule.Inv (r : Rule) : Prop := r.low.toNat ≤ r.high.toNat ∧ r.rfmt.toNat ≤ 4

/-- The invariants of every reachable state. -/
structure State.Inv (s : State) : Prop where
  /-- The parameters meet the constraints of R7. -/
  legal : s.cfg.Legal
  /-- There are `NFRAME` frame registers (R20). -/
  frames : s.frames.length = s.cfg.nframe
  /-- The body of `A` has `API_LEN` bytes (R33). -/
  api : s.apiBody.length = s.cfg.apiLen
  /-- The body of `E` has `ERR_LEN` bytes (R33). -/
  err : s.errBody.length = s.cfg.errLen
  /-- There are `NFILT` rule slots (R34). -/
  slots : s.rules.length = s.cfg.nfilt
  /-- R44 (1) to (4). -/
  frame : ∀ f ∈ s.frames, f.Inv
  /-- R44 (5). -/
  count : s.flcnt.toNat ≤ s.cfg.nfilt
  /-- R44 (6), for the rules of the list. -/
  rule : ∀ r ∈ s.ruleList, r.Inv
  /-- R44 (7). -/
  valid : s.blen.toNat ≤ s.cfg.bufsz
  /-- The buffer is in its canonical form. -/
  canonical : Memory.wf s.buf
  /-- Every byte of the buffer stands below `BUFSZ` (R60). -/
  inside : ∀ c ∈ s.buf, c.1 < s.cfg.bufsz
  /-- R44 (8): `STATUS[31:1]` is zero. -/
  status : s.status.toNat ≤ 1

/-- `F[a]` exists: the index is legal (R86) and the state holds `NFRAME` registers (R20). -/
abbrev State.HasFrame (s : State) (a : Byte) : Prop :=
  a.toNat < s.cfg.nframe ∧ s.frames.length = s.cfg.nframe

/-- Nothing but the response changed. -/
def State.OnlyResponse (s t : State) : Prop := t = { s with rsp := t.rsp }

/-- Nothing but register `F[a]` and the response changed. -/
def State.OnlyFrame (s t : State) (a : Byte) : Prop :=
  t = { s with frames := t.frames, rsp := t.rsp } ∧ t.frames.length = s.frames.length ∧
    ∀ k, k ≠ a.toNat → t.frames[k]? = s.frames[k]?

/-- Nothing but the byte buffer, `BLEN` and the response changed. -/
def State.OnlyBuffer (s t : State) : Prop :=
  t = { s with buf := t.buf, blen := t.blen, rsp := t.rsp }

/-- The time in nanoseconds that a timestamp stands for (spec/44_timestamp.md R210). -/
def Timestamp.nanos (t : Timestamp) : Nat := t.sec.toNat * 1000000000 + t.nsec.toNat

end Sys2Proof.Machine
end

