-- ==== Sys2Proof/Certificates/Slice0/Obligations.lean ====
section
/-! DEFINITION. The statements for the provers. Each docstring names the rule of spec/ it formalises. -/

open Sys2Proof
open Sys2Proof.Machine

/-! Beats, decoding, the port. -/

/-- A step that finds a beat on the port which decodes to a command runs that command on the state
whose host list has lost the beat (00_scope.md R9, 20_memory.md R70). -/
def Obligations.StepRunsDecodedCommand : Prop :=
  ∀ (s : State) (b : Beat) (rest : List PortEvent) (i : Instr),
    s.host = .beat b :: rest → decode b = .ok i → step s = exec i { s with host := rest }

/-- R84, R85: a beat whose command word selects no row of the opcode map (an unknown opcode, or a
must-be-zero field that is not zero) sets `STATUS.ILL`, answers `OK = 0, RV = 0` and changes nothing
else. -/
def Obligations.UnselectedBeatIsIllegal : Prop :=
  ∀ (s : State) (b : Beat) (rest : List PortEvent),
    s.host = .beat b :: rest → (∀ r ∈ opcodeMap, b.cw &&& r.2 ≠ r.1) →
    step s = .next { s with host := rest, status := s.status ||| 1, rsp := some ⟨false, 0⟩ }

/-- R87, last paragraph: the rows are disjoint, and a command word that selects a row is decoded. -/
def Obligations.OpcodeRowsDisjointAndDecoded : Prop :=
  opcodeMap.length = 49 ∧
  (∀ (cw : Word) (j k : Fin 49),
    cw &&& (opcodeMap.getD j.val (0, 0)).2 = (opcodeMap.getD j.val (0, 0)).1 →
    cw &&& (opcodeMap.getD k.val (0, 0)).2 = (opcodeMap.getD k.val (0, 0)).1 → j = k) ∧
  ∀ b : Beat, (∃ r ∈ opcodeMap, b.cw &&& r.2 = r.1) ↔ ∃ i, decode b = .ok i

/-- R86: a command with a frame index that is not below `NFRAME` sets `STATUS.ILL`, answers
`OK = 0, RV = 0` and changes nothing else, whatever its other operands are. -/
def Obligations.FrameIndexOutOfRangeIsIllegal : Prop :=
  ∀ (i : Instr) (s : State), ¬ i.WellFormed s.cfg →
    exec i s = .next { s with status := s.status ||| 1, rsp := some ⟨false, 0⟩ }

/-- Decoding the encoding of a command gives it back, for every command and every operand value. -/
def Obligations.DecodeOfEncodeIsIdentity : Prop :=
  ∀ i : Instr, decode (encode i) = .ok i

/-- Every command word that decodes is the encoding of what it decodes to: no bit of it is dropped. -/
def Obligations.DecodedWordIsItsEncoding : Prop :=
  ∀ (b : Beat) (i : Instr), decode b = .ok i → (encode i).cw = b.cw

/-- R88: operand words a format does not use are ignored, in decoding a legal and an illegal beat.
The first list holds the opcodes of the formats that use `OPA` and not `OPB` (FIA, FA, A), the second
those of the formats that use both (FAB, R, AB); every other opcode uses neither. The encoder writes zero there. -/
def Obligations.UnusedOperandWordsIgnored : Prop :=
  ∀ (cw x y x' y' : Word),
    let usesOpa : List Byte := [0x10, 0x12, 0x14, 0x16, 0x20, 0x41, 0x61, 0x62, 0x3A, 0x3C]
    let usesBoth : List Byte := [0x18, 0x40, 0x60, 0x39, 0x3B]
    (cw.extractLsb' 24 8 ∈ usesOpa → decode ⟨cw, x, y⟩ = decode ⟨cw, x, y'⟩) ∧
    (cw.extractLsb' 24 8 ∉ usesOpa → cw.extractLsb' 24 8 ∉ usesBoth →
      decode ⟨cw, x, y⟩ = decode ⟨cw, x', y'⟩) ∧
    ∀ i : Instr, ((encode i).cw.extractLsb' 24 8 ∉ usesBoth → (encode i).opb = 0) ∧
      ((encode i).cw.extractLsb' 24 8 ∉ usesOpa → (encode i).cw.extractLsb' 24 8 ∉ usesBoth →
        (encode i).opa = 0)

/-- The example encodings of R91, one per format, decode to the commands they stand for. -/
def Obligations.ExampleWordsDecode : Prop :=
  decode ⟨0x01000000, 0, 0⟩ = .ok .stat ∧
  decode ⟨0x11020000, 0, 0⟩ = .ok (.dsize 2) ∧
  decode ⟨0x1C010000, 0, 0⟩ = .ok (.fcopy 1 0) ∧
  decode ⟨0x22000009, 0, 0⟩ = .ok (.setdlc 0 9) ∧
  decode ⟨0x10000003, 0x12345678, 0⟩ = .ok (.finit 0 3 0x12345678) ∧
  decode ⟨0x20010000, 0x7FF, 0⟩ = .ok (.setid 1 0x7FF) ∧
  decode ⟨0x18000000, 0x11, 0x149CB114⟩ = .ok (.setts 0 17 345813268) ∧
  decode ⟨0x40010400, 0x200, 0x240⟩ = .ok (.flapp 1 4 0x200 0x240) ∧
  decode ⟨0x41000000, 1, 0⟩ = .ok (.flrem 1) ∧
  decode ⟨0x60000000, 0, 1⟩ = .ok (.bufwr 0 1)

/-- The block is idle between beats: with nothing offered a step keeps all state and gives no
response (60_exceptions.md R242). -/
def Obligations.IdleStepKeepsAllState : Prop :=
  ∀ s : State, s.host = [] → step s = .next { s with rsp := none }

/-- R42: after `rst` every piece of state of the block is zero, whatever it was and whatever command
was in progress; no response is given, the parameters and what the host does next stay. -/
def Obligations.ResetZeroesEveryRegister : Prop :=
  ∀ (s : State) (lost : Option Beat) (rest : List PortEvent), s.host = .rst lost :: rest →
    ∃ t, step s = .next t ∧ t.cfg = s.cfg ∧ t.host = rest ∧ t.rsp = none ∧
      t.frames.length = s.cfg.nframe ∧
      (∀ f ∈ t.frames, f.ctrl = 0 ∧ f.id = 0 ∧ f.dlc = 0 ∧ (∀ k : Fin 64, f.data[k] = 0) ∧
        f.marker = 0 ∧ f.user = 0 ∧ f.ts.sec = 0 ∧ f.ts.nsec = 0) ∧
      t.apiBody.length = s.cfg.apiLen ∧ (∀ v ∈ t.apiBody, v = 0) ∧
      t.errBody.length = s.cfg.errLen ∧ (∀ v ∈ t.errBody, v = 0) ∧
      t.rules.length = s.cfg.nfilt ∧
      (∀ r ∈ t.rules, r.policy = 0 ∧ r.rfmt = 0 ∧ r.low = 0 ∧ r.high = 0) ∧
      t.flcnt = 0 ∧ (∀ x, Memory.read t.buf x = 0) ∧ t.blen = 0 ∧ t.status = 0

/-- R251: the first observable behaviours after reset, for every legal configuration (the image of
SERD for `TAG_DATA = 0x00`). -/
def Obligations.FirstAnswersAfterReset : Prop :=
  ∀ c : Config, c.Legal →
    let s := State.resetOf c
    exec .stat s = .next { s with rsp := some ⟨true, 0⟩ } ∧
    exec .flcnt s = .next { s with rsp := some ⟨true, 0⟩ } ∧
    exec .getblen s = .next { s with rsp := some ⟨true, 0⟩ } ∧
    exec .desa s = .next { s with rsp := some ⟨false, 0⟩ } ∧
    exec .dese s = .next { s with rsp := some ⟨false, 0⟩ } ∧
    exec .bkind s = .next { s with rsp := some ⟨false, 0⟩ } ∧
    ∀ a : Byte, a.toNat < c.nframe →
      exec (.fltest a) s = .next { s with rsp := some ⟨true, 0⟩ } ∧
      exec (.desd a) s = .next { s with rsp := some ⟨false, 0⟩ } ∧
      (c.tagData = 0 → ∃ t, exec (.serd a) s = .next t ∧ t.blen = 23 ∧
        t.rsp = some ⟨true, 23⟩ ∧ ∀ x, x < 23 → Memory.read t.buf x = 0)

/-! System and buffer access. -/

/-- R220, R221: NOP answers 0 and changes nothing; STAT answers bit 0 of `STATUS`, and 0 in the bits
31:1, and does not clear it. -/
def Obligations.NopAndStatOnlyAnswer : Prop :=
  ∀ (s : State) (x y : Word),
    decode ⟨0x00#8 ++ 0#8 ++ 0#8 ++ 0#8, x, y⟩ = .ok .nop ∧ decode ⟨0x01#8 ++ 0#8 ++ 0#8 ++ 0#8, x, y⟩ = .ok .stat ∧
    exec .nop s = .next { s with rsp := some ⟨true, 0⟩ } ∧
    exec .stat s = .next { s with rsp := some ⟨true, if s.status.getLsbD 0 then 1 else 0⟩ }

/-- R222: BUFWR writes the low byte of `OPB` at the offset `OPA` and leaves every other byte and
`BLEN` as they were; an offset outside the buffer is a value failure. -/
def Obligations.BufwrWritesOneByte : Prop :=
  ∀ (s : State) (x v : Word), Memory.wf s.buf →
    decode ⟨0x60#8 ++ 0#8 ++ 0#8 ++ 0#8, x, v⟩ = .ok (.bufwr x v) ∧
    (x.toNat < s.cfg.bufsz → ∃ t, exec (.bufwr x v) s = .next t ∧ t.rsp = some ⟨true, 0⟩ ∧
      Memory.read t.buf x.toNat = v.extractLsb' 0 8 ∧
      (∀ k, k ≠ x.toNat → Memory.read t.buf k = Memory.read s.buf k) ∧
      t = { s with buf := t.buf, rsp := t.rsp }) ∧
    (s.cfg.bufsz ≤ x.toNat → exec (.bufwr x v) s = .next { s with rsp := some ⟨false, 0⟩ })

/-- R223: BUFRD answers the byte at any offset below `BUFSZ`, whatever `BLEN` is, and changes nothing;
an offset outside the buffer is a value failure. -/
def Obligations.BufrdReadsOneByte : Prop :=
  ∀ (s : State) (x y : Word),
    decode ⟨0x61#8 ++ 0#8 ++ 0#8 ++ 0#8, x, y⟩ = .ok (.bufrd x) ∧
    (x.toNat < s.cfg.bufsz →
      exec (.bufrd x) s = .next { s with rsp := some ⟨true, (Memory.read s.buf x.toNat).setWidth 32⟩ }) ∧
    (s.cfg.bufsz ≤ x.toNat → exec (.bufrd x) s = .next { s with rsp := some ⟨false, 0⟩ })

/-- R224, R225: SETBLEN sets `BLEN` to any value up to and including `BUFSZ`, refuses a larger one and
touches no byte; GETBLEN answers `BLEN`. -/
def Obligations.BlenSetAndGet : Prop :=
  ∀ (s : State) (x y z : Word),
    decode ⟨0x62#8 ++ 0#8 ++ 0#8 ++ 0#8, x, y⟩ = .ok (.setblen x) ∧ decode ⟨0x63#8 ++ 0#8 ++ 0#8 ++ 0#8, z, y⟩ = .ok .getblen ∧
    (x.toNat ≤ s.cfg.bufsz →
      exec (.setblen x) s = .next { s with blen := x, rsp := some ⟨true, 0⟩ }) ∧
    (s.cfg.bufsz < x.toNat → exec (.setblen x) s = .next { s with rsp := some ⟨false, 0⟩ }) ∧
    exec .getblen s = .next { s with rsp := some ⟨true, s.blen⟩ }

/-! Frame model. -/

/-- R111: FINIT gives the register the format and the masked identifier and zeroes every other field,
the 64 payload bytes included; a format code above 3 is a value failure; nothing else changes. -/
def Obligations.FinitConstructsFrame : Prop :=
  ∀ (s : State) (a imm : Byte) (v w : Word), s.HasFrame a →
    decode ⟨0x10#8 ++ a ++ 0#8 ++ imm, v, w⟩ = .ok (.finit a imm v) ∧
    (imm.toNat ≤ 3 → ∃ t, exec (.finit a imm v) s = .next t ∧ t.rsp = some ⟨true, 0⟩ ∧
      s.OnlyFrame t a ∧ (t.frame a).ctrl = imm ∧
      (t.frame a).id = v &&& (if imm.getLsbD 0 then 0x1FFFFFFF else 0x7FF) ∧
      (t.frame a).dlc = 0 ∧ (∀ k : Fin 64, (t.frame a).data[k] = 0) ∧ (t.frame a).marker = 0 ∧
      (t.frame a).user = 0 ∧ (t.frame a).ts.sec = 0 ∧ (t.frame a).ts.nsec = 0) ∧
    (3 < imm.toNat → exec (.finit a imm v) s = .next { s with rsp := some ⟨false, 0⟩ })

/-- R112, R113: DSIZE answers the resolved payload size, `min(dlc, 8)` for a classic frame and the
table for an FD frame, and changes nothing. -/
def Obligations.DsizeAnswersResolvedSize : Prop :=
  ∀ (s : State) (a : Byte) (x y : Word), a.toNat < s.cfg.nframe →
    decode ⟨0x11#8 ++ a ++ 0#8 ++ 0#8, x, y⟩ = .ok (.dsize a) ∧
    ((s.frame a).ctrl.getLsbD 1 = false →
      exec (.dsize a) s =
        .next { s with rsp := some ⟨true, BitVec.ofNat 32 (min (s.frame a).dlc.toNat 8)⟩ }) ∧
    ((s.frame a).ctrl.getLsbD 1 = true →
      exec (.dsize a) s = .next { s with rsp := some ⟨true, BitVec.ofNat 32
        ([0, 1, 2, 3, 4, 5, 6, 7, 8, 12, 16, 20, 24, 32, 48, 64].getD (s.frame a).dlc.toNat 0)⟩ })

/-- R114: SETDAT stores the low byte of `OPA` at an index below the resolved size and changes no other
byte and no other field; at any other index nothing changes. -/
def Obligations.SetdatWritesVisibleByte : Prop :=
  ∀ (s : State) (a imm : Byte) (v w : Word), s.HasFrame a →
    decode ⟨0x12#8 ++ a ++ 0#8 ++ imm, v, w⟩ = .ok (.setdat a imm v) ∧
    (imm.toNat < (s.frame a).size → ∃ t, exec (.setdat a imm v) s = .next t ∧
      t.rsp = some ⟨true, 0⟩ ∧ s.OnlyFrame t a ∧
      t.frame a = { s.frame a with data := (t.frame a).data } ∧
      ∀ k : Fin 64, (t.frame a).data[k] =
        if k.val = imm.toNat then v.extractLsb' 0 8 else (s.frame a).data[k]) ∧
    ((s.frame a).size ≤ imm.toNat →
      exec (.setdat a imm v) s = .next { s with rsp := some ⟨false, 0⟩ })

/-- R115: GETDAT answers a visible payload byte and refuses every index beyond the resolved size. -/
def Obligations.GetdatReadsVisibleByte : Prop :=
  ∀ (s : State) (a imm : Byte) (x y : Word), a.toNat < s.cfg.nframe →
    decode ⟨0x13#8 ++ a ++ 0#8 ++ imm, x, y⟩ = .ok (.getdat a imm) ∧
    (∀ k : Fin 64, k.val = imm.toNat → imm.toNat < (s.frame a).size →
      exec (.getdat a imm) s =
        .next { s with rsp := some ⟨true, (s.frame a).data[k].setWidth 32⟩ }) ∧
    ((s.frame a).size ≤ imm.toNat →
      exec (.getdat a imm) s = .next { s with rsp := some ⟨false, 0⟩ })

/-- R116 to R119: the marker and the user tag are stored unchanged, whatever the value, and read back;
no other field and no other register changes. -/
def Obligations.MarkerAndUserStored : Prop :=
  ∀ (s : State) (a : Byte) (v x y : Word), s.HasFrame a →
    decode ⟨0x14#8 ++ a ++ 0#8 ++ 0#8, v, y⟩ = .ok (.setmrk a v) ∧
    decode ⟨0x15#8 ++ a ++ 0#8 ++ 0#8, x, y⟩ = .ok (.getmrk a) ∧
    decode ⟨0x16#8 ++ a ++ 0#8 ++ 0#8, v, y⟩ = .ok (.setusr a v) ∧
    decode ⟨0x17#8 ++ a ++ 0#8 ++ 0#8, x, y⟩ = .ok (.getusr a) ∧
    (∃ t, exec (.setmrk a v) s = .next t ∧ t.rsp = some ⟨true, 0⟩ ∧ s.OnlyFrame t a ∧
      t.frame a = { s.frame a with marker := v }) ∧
    (∃ t, exec (.setusr a v) s = .next t ∧ t.rsp = some ⟨true, 0⟩ ∧ s.OnlyFrame t a ∧
      t.frame a = { s.frame a with user := v }) ∧
    exec (.getmrk a) s = .next { s with rsp := some ⟨true, (s.frame a).marker⟩ } ∧
    exec (.getusr a) s = .next { s with rsp := some ⟨true, (s.frame a).user⟩ }

/-- R121: SETTS caps each component at its limit on its own and writes nothing else; with it, R124's
TSVAL answers 1 afterwards. -/
def Obligations.SettsCapsEachComponent : Prop :=
  ∀ (s : State) (a : Byte) (v w : Word), s.HasFrame a →
    decode ⟨0x18#8 ++ a ++ 0#8 ++ 0#8, v, w⟩ = .ok (.setts a v w) ∧
    ∃ t, exec (.setts a v w) s = .next t ∧ t.rsp = some ⟨true, 0⟩ ∧ s.OnlyFrame t a ∧
      t.frame a = { s.frame a with ts := (t.frame a).ts } ∧
      (t.frame a).ts.sec.toNat = min v.toNat s.cfg.secsLimit.toNat ∧
      (t.frame a).ts.nsec.toNat = min w.toNat 999999999 ∧
      exec (.tsval a) t = .next { t with rsp := some ⟨true, 1⟩ }

/-- R122, R123, R124: GETTSS and GETTSN answer the stored words, TSVAL answers whether both are within
their limits, and none of them changes anything. -/
def Obligations.TimestampReadsAnswer : Prop :=
  ∀ (s : State) (a : Byte) (x y : Word), a.toNat < s.cfg.nframe →
    decode ⟨0x19#8 ++ a ++ 0#8 ++ 0#8, x, y⟩ = .ok (.gettss a) ∧
    decode ⟨0x1A#8 ++ a ++ 0#8 ++ 0#8, x, y⟩ = .ok (.gettsn a) ∧
    decode ⟨0x1B#8 ++ a ++ 0#8 ++ 0#8, x, y⟩ = .ok (.tsval a) ∧
    exec (.gettss a) s = .next { s with rsp := some ⟨true, (s.frame a).ts.sec⟩ } ∧
    exec (.gettsn a) s = .next { s with rsp := some ⟨true, (s.frame a).ts.nsec⟩ } ∧
    exec (.tsval a) s = .next { s with rsp := some ⟨true,
      if (s.frame a).ts.sec.toNat ≤ s.cfg.secsLimit.toNat ∧ (s.frame a).ts.nsec.toNat ≤ 999999999
      then 1 else 0⟩ }

/-- R125: FCOPY makes the destination equal to the source in every field, the hidden bytes included,
and touches no other register; onto itself it changes nothing. -/
def Obligations.FcopyCopiesWholeRegister : Prop :=
  ∀ (s : State) (a b : Byte) (x y : Word), s.HasFrame a → s.HasFrame b →
    decode ⟨0x1C#8 ++ a ++ b ++ 0#8, x, y⟩ = .ok (.fcopy a b) ∧
    ∃ t, exec (.fcopy a b) s = .next t ∧ t.rsp = some ⟨true, 0⟩ ∧ s.OnlyFrame t a ∧
      t.frame a = s.frame b ∧ (a = b → t.frames = s.frames)

/-- R126: FEQ answers 1 exactly when `ctrl`, `id`, `dlc`, the visible payload, the tags and the
timestamp agree, and changes nothing; hidden bytes do not count. -/
def Obligations.FeqComparesVisibleFields : Prop :=
  ∀ (s : State) (a b : Byte) (x y : Word), a.toNat < s.cfg.nframe → b.toNat < s.cfg.nframe →
    decode ⟨0x1D#8 ++ a ++ b ++ 0#8, x, y⟩ = .ok (.feq a b) ∧
    ∃ r : Word, exec (.feq a b) s = .next { s with rsp := some ⟨true, r⟩ } ∧ (r = 0 ∨ r = 1) ∧
      (r = 1 ↔ ((s.frame a).ctrl = (s.frame b).ctrl ∧ (s.frame a).id = (s.frame b).id ∧
        (s.frame a).dlc = (s.frame b).dlc ∧
        (∀ k : Fin 64, k.val < (s.frame a).size → (s.frame a).data[k] = (s.frame b).data[k]) ∧
        (s.frame a).marker = (s.frame b).marker ∧ (s.frame a).user = (s.frame b).user ∧
        (s.frame a).ts.sec = (s.frame b).ts.sec ∧ (s.frame a).ts.nsec = (s.frame b).ts.nsec))

/-- R127, R151: GETFMT answers the two low bits of the control byte, GETCTRL the whole byte. -/
def Obligations.FormatAndControlReads : Prop :=
  ∀ (s : State) (a : Byte) (x y : Word), a.toNat < s.cfg.nframe →
    decode ⟨0x1E#8 ++ a ++ 0#8 ++ 0#8, x, y⟩ = .ok (.getfmt a) ∧
    decode ⟨0x2A#8 ++ a ++ 0#8 ++ 0#8, x, y⟩ = .ok (.getctrl a) ∧
    exec (.getfmt a) s =
      .next { s with rsp := some ⟨true, BitVec.ofNat 32 ((s.frame a).ctrl.toNat % 4)⟩ } ∧
    exec (.getctrl a) s =
      .next { s with rsp := some ⟨true, BitVec.ofNat 32 (s.frame a).ctrl.toNat⟩ }

/-! Bit-layout codec. -/

/-- R141: SETID stores the identifier truncated by the mask of the frame's own format, never fails,
and changes nothing else, the format included. -/
def Obligations.SetidMasksToFormat : Prop :=
  ∀ (s : State) (a : Byte) (v w : Word), s.HasFrame a →
    decode ⟨0x20#8 ++ a ++ 0#8 ++ 0#8, v, w⟩ = .ok (.setid a v) ∧
    ∃ t, exec (.setid a v) s = .next t ∧ t.rsp = some ⟨true, 0⟩ ∧ s.OnlyFrame t a ∧
      t.frame a = { s.frame a with
        id := v &&& (if (s.frame a).ctrl.getLsbD 0 then 0x1FFFFFFF else 0x7FF) }

/-- R142, R144: GETID and GETDLC answer the stored identifier and the stored DLC code. -/
def Obligations.IdAndDlcReads : Prop :=
  ∀ (s : State) (a : Byte) (x y : Word), a.toNat < s.cfg.nframe →
    decode ⟨0x21#8 ++ a ++ 0#8 ++ 0#8, x, y⟩ = .ok (.getid a) ∧
    decode ⟨0x23#8 ++ a ++ 0#8 ++ 0#8, x, y⟩ = .ok (.getdlc a) ∧
    exec (.getid a) s = .next { s with rsp := some ⟨true, (s.frame a).id⟩ } ∧
    exec (.getdlc a) s =
      .next { s with rsp := some ⟨true, BitVec.ofNat 32 (s.frame a).dlc.toNat⟩ }

/-- R143: SETDLC stores a code 0 to 15 as written in every format and touches no payload byte; a
larger operand is a value failure. -/
def Obligations.SetdlcStoresAsWritten : Prop :=
  ∀ (s : State) (a imm : Byte) (x y : Word), s.HasFrame a →
    decode ⟨0x22#8 ++ a ++ 0#8 ++ imm, x, y⟩ = .ok (.setdlc a imm) ∧
    (imm.toNat ≤ 15 → ∃ t, exec (.setdlc a imm) s = .next t ∧ t.rsp = some ⟨true, 0⟩ ∧
      s.OnlyFrame t a ∧ t.frame a = { s.frame a with dlc := (t.frame a).dlc } ∧
      (t.frame a).dlc.toNat = imm.toNat) ∧
    (15 < imm.toNat → exec (.setdlc a imm) s = .next { s with rsp := some ⟨false, 0⟩ })

/-- R145, R146, R147: ISEXT, ISRTR and ISOVR answer the bits 0, 2 and 3 of the control byte. -/
def Obligations.FlagReadsAnswerControlBits : Prop :=
  ∀ (s : State) (a : Byte) (x y : Word), a.toNat < s.cfg.nframe →
    decode ⟨0x24#8 ++ a ++ 0#8 ++ 0#8, x, y⟩ = .ok (.isext a) ∧
    decode ⟨0x25#8 ++ a ++ 0#8 ++ 0#8, x, y⟩ = .ok (.isrtr a) ∧
    decode ⟨0x26#8 ++ a ++ 0#8 ++ 0#8, x, y⟩ = .ok (.isovr a) ∧
    exec (.isext a) s =
      .next { s with rsp := some ⟨true, if (s.frame a).ctrl.getLsbD 0 then 1 else 0⟩ } ∧
    exec (.isrtr a) s =
      .next { s with rsp := some ⟨true, if (s.frame a).ctrl.getLsbD 2 then 1 else 0⟩ } ∧
    exec (.isovr a) s =
      .next { s with rsp := some ⟨true, if (s.frame a).ctrl.getLsbD 3 then 1 else 0⟩ }

/-- R148, R149: SETRTR writes bit 2 of the control byte and SETOVR bit 3, no other bit and no other
field; an operand above 1 is a value failure. -/
def Obligations.FlagWritesTouchOneBit : Prop :=
  ∀ (s : State) (a imm : Byte) (x y : Word), s.HasFrame a →
    decode ⟨0x27#8 ++ a ++ 0#8 ++ imm, x, y⟩ = .ok (.setrtr a imm) ∧
    decode ⟨0x28#8 ++ a ++ 0#8 ++ imm, x, y⟩ = .ok (.setovr a imm) ∧
    (imm.toNat ≤ 1 →
      (∃ t, exec (.setrtr a imm) s = .next t ∧ t.rsp = some ⟨true, 0⟩ ∧ s.OnlyFrame t a ∧
        t.frame a = { s.frame a with ctrl := (t.frame a).ctrl } ∧
        ∀ k, (t.frame a).ctrl.getLsbD k =
          if k = 2 then imm.getLsbD 0 else (s.frame a).ctrl.getLsbD k) ∧
      (∃ t, exec (.setovr a imm) s = .next t ∧ t.rsp = some ⟨true, 0⟩ ∧ s.OnlyFrame t a ∧
        t.frame a = { s.frame a with ctrl := (t.frame a).ctrl } ∧
        ∀ k, (t.frame a).ctrl.getLsbD k =
          if k = 3 then imm.getLsbD 0 else (s.frame a).ctrl.getLsbD k)) ∧
    (1 < imm.toNat → exec (.setrtr a imm) s = .next { s with rsp := some ⟨false, 0⟩ } ∧
      exec (.setovr a imm) s = .next { s with rsp := some ⟨false, 0⟩ })

/-- R150: FCLR zeroes every field of the register, the hidden bytes included, and keeps only the two
format bits of the control byte. -/
def Obligations.FclrKeepsOnlyFormat : Prop :=
  ∀ (s : State) (a : Byte) (x y : Word), s.HasFrame a →
    decode ⟨0x29#8 ++ a ++ 0#8 ++ 0#8, x, y⟩ = .ok (.fclr a) ∧
    ∃ t, exec (.fclr a) s = .next t ∧ t.rsp = some ⟨true, 0⟩ ∧ s.OnlyFrame t a ∧
      (∀ k, (t.frame a).ctrl.getLsbD k = (decide (k < 2) && (s.frame a).ctrl.getLsbD k)) ∧
      (t.frame a).id = 0 ∧ (t.frame a).dlc = 0 ∧ (∀ k : Fin 64, (t.frame a).data[k] = 0) ∧
      (t.frame a).marker = 0 ∧ (t.frame a).user = 0 ∧
      (t.frame a).ts.sec = 0 ∧ (t.frame a).ts.nsec = 0 ∧
      exec (.finit a (BitVec.ofNat 8 ((s.frame a).ctrl.toNat % 4)) 0) s = .next t

/-! Serializer. -/

/-- R162: SERD writes the image of R66 at offset 0, sets `BLEN` to its length and answers it; the bytes
beyond the image, and every register but `BLEN`, keep their values. -/
def Obligations.SerdWritesDataImage : Prop :=
  ∀ (s : State) (a : Byte) (x y : Word), s.Inv → a.toNat < s.cfg.nframe →
    decode ⟨0x30#8 ++ a ++ 0#8 ++ 0#8, x, y⟩ = .ok (.serd a) ∧
    ∃ t, exec (.serd a) s = .next t ∧ s.OnlyBuffer t ∧
      let f := s.frame a
      let n := f.size
      let word (at_ : Nat) (v : Word) : Prop :=
        Memory.read t.buf at_ = v.extractLsb' 24 8 ∧ Memory.read t.buf (at_ + 1) = v.extractLsb' 16 8 ∧
        Memory.read t.buf (at_ + 2) = v.extractLsb' 8 8 ∧ Memory.read t.buf (at_ + 3) = v.extractLsb' 0 8
      t.rsp = some ⟨true, BitVec.ofNat 32 (23 + n)⟩ ∧ t.blen.toNat = 23 + n ∧
      Memory.read t.buf 0 = s.cfg.tagData ∧ Memory.read t.buf 1 = f.ctrl ∧
      (Memory.read t.buf 2).toNat = f.dlc.toNat ∧ word 3 f.id ∧
      (∀ k : Fin 64, k.val < n → Memory.read t.buf (7 + k.val) = f.data[k]) ∧
      word (7 + n) f.marker ∧ word (11 + n) f.user ∧
      word (15 + n) f.ts.sec ∧ word (19 + n) f.ts.nsec ∧
      ∀ p, 23 + n ≤ p → Memory.read t.buf p = Memory.read s.buf p

/-- R163, R164: SERA and SERE write the tag and the opaque body, set `BLEN` and answer the length; the
bytes beyond the image, and every register but `BLEN`, keep their values. -/
def Obligations.SeraSereWriteBodyImage : Prop :=
  ∀ (s : State) (x y : Word), s.Inv →
    decode ⟨0x31#8 ++ 0#8 ++ 0#8 ++ 0#8, x, y⟩ = .ok .sera ∧ decode ⟨0x32#8 ++ 0#8 ++ 0#8 ++ 0#8, x, y⟩ = .ok .sere ∧
    (∃ t, exec .sera s = .next t ∧ s.OnlyBuffer t ∧
      t.rsp = some ⟨true, BitVec.ofNat 32 (1 + s.cfg.apiLen)⟩ ∧ t.blen.toNat = 1 + s.cfg.apiLen ∧
      Memory.read t.buf 0 = s.cfg.tagApi ∧
      (∀ k, k < s.cfg.apiLen → s.apiBody[k]? = some (Memory.read t.buf (1 + k))) ∧
      ∀ p, 1 + s.cfg.apiLen ≤ p → Memory.read t.buf p = Memory.read s.buf p) ∧
    (∃ t, exec .sere s = .next t ∧ s.OnlyBuffer t ∧
      t.rsp = some ⟨true, BitVec.ofNat 32 (1 + s.cfg.errLen)⟩ ∧ t.blen.toNat = 1 + s.cfg.errLen ∧
      Memory.read t.buf 0 = s.cfg.tagError ∧
      (∀ k, k < s.cfg.errLen → s.errBody[k]? = some (Memory.read t.buf (1 + k))) ∧
      ∀ p, 1 + s.cfg.errLen ≤ p → Memory.read t.buf p = Memory.read s.buf p)

/-- R166: when the tag, the flag bits, the DLC byte and the length of the valid bytes are as the rule
asks, DESD writes every field of the target from the image, the identifier masked and the bytes
beyond the payload zero, answers the bytes taken, and changes no other register and no buffer byte;
when one of them is not, it is a value failure and nothing changes (R165). -/
def Obligations.DesdReadsDataImage : Prop :=
  ∀ (s : State) (a : Byte) (x y : Word), s.HasFrame a → s.blen.toNat ≤ s.cfg.bufsz →
    decode ⟨0x34#8 ++ a ++ 0#8 ++ 0#8, x, y⟩ = .ok (.desd a) ∧
    let m := Memory.read s.buf
    let word (at_ : Nat) : Word := m at_ ++ m (at_ + 1) ++ m (at_ + 2) ++ m (at_ + 3)
    let n := if (m 1).getLsbD 1
      then [0, 1, 2, 3, 4, 5, 6, 7, 8, 12, 16, 20, 24, 32, 48, 64].getD (m 2).toNat 0
      else min (m 2).toNat 8
    let good := 23 ≤ s.blen.toNat ∧ m 0 = s.cfg.tagData ∧ (m 1).toNat < 16 ∧ (m 2).toNat ≤ 15 ∧
      23 + n ≤ s.blen.toNat
    (good → ∃ t, exec (.desd a) s = .next t ∧ s.OnlyFrame t a ∧
      t.rsp = some ⟨true, BitVec.ofNat 32 (23 + n)⟩ ∧
      (t.frame a).ctrl = m 1 ∧ (t.frame a).dlc.toNat = (m 2).toNat ∧
      (t.frame a).id = word 3 &&& (if (m 1).getLsbD 0 then 0x1FFFFFFF else 0x7FF) ∧
      (∀ k : Fin 64, (t.frame a).data[k] = if k.val < n then m (7 + k.val) else 0) ∧
      (t.frame a).marker = word (7 + n) ∧ (t.frame a).user = word (11 + n) ∧
      (t.frame a).ts.sec = word (15 + n) ∧ (t.frame a).ts.nsec = word (19 + n)) ∧
    (¬ good → exec (.desd a) s = .next { s with rsp := some ⟨false, 0⟩ })

/-- R167, R168: DESA and DESE take the body of an image of their own tag that is long enough, answer
the bytes taken and change nothing else; on any other buffer nothing changes. -/
def Obligations.DesaDeseReadBodyImage : Prop :=
  ∀ (s : State) (x y : Word), s.Inv →
    decode ⟨0x35#8 ++ 0#8 ++ 0#8 ++ 0#8, x, y⟩ = .ok .desa ∧ decode ⟨0x36#8 ++ 0#8 ++ 0#8 ++ 0#8, x, y⟩ = .ok .dese ∧
    (1 + s.cfg.apiLen ≤ s.blen.toNat ∧ Memory.read s.buf 0 = s.cfg.tagApi →
      ∃ t, exec .desa s = .next t ∧ t = { s with apiBody := t.apiBody, rsp := t.rsp } ∧
        t.rsp = some ⟨true, BitVec.ofNat 32 (1 + s.cfg.apiLen)⟩ ∧
        t.apiBody.length = s.cfg.apiLen ∧
        ∀ k, k < s.cfg.apiLen → t.apiBody[k]? = some (Memory.read s.buf (1 + k))) ∧
    (¬ (1 + s.cfg.apiLen ≤ s.blen.toNat ∧ Memory.read s.buf 0 = s.cfg.tagApi) →
      exec .desa s = .next { s with rsp := some ⟨false, 0⟩ }) ∧
    (1 + s.cfg.errLen ≤ s.blen.toNat ∧ Memory.read s.buf 0 = s.cfg.tagError →
      ∃ t, exec .dese s = .next t ∧ t = { s with errBody := t.errBody, rsp := t.rsp } ∧
        t.rsp = some ⟨true, BitVec.ofNat 32 (1 + s.cfg.errLen)⟩ ∧
        t.errBody.length = s.cfg.errLen ∧
        ∀ k, k < s.cfg.errLen → t.errBody[k]? = some (Memory.read s.buf (1 + k))) ∧
    (¬ (1 + s.cfg.errLen ≤ s.blen.toNat ∧ Memory.read s.buf 0 = s.cfg.tagError) →
      exec .dese s = .next { s with rsp := some ⟨false, 0⟩ })

/-- R169: BKIND answers the kind of a non-empty buffer by its first byte alone, fails on an empty
buffer and on an unknown tag, and changes nothing. -/
def Obligations.BkindClassifiesByTag : Prop :=
  ∀ (s : State) (x y : Word), s.Inv →
    decode ⟨0x38#8 ++ 0#8 ++ 0#8 ++ 0#8, x, y⟩ = .ok .bkind ∧
    (s.blen = 0 → exec .bkind s = .next { s with rsp := some ⟨false, 0⟩ }) ∧
    (s.blen ≠ 0 →
      (Memory.read s.buf 0 = s.cfg.tagData → exec .bkind s = .next { s with rsp := some ⟨true, 0⟩ }) ∧
      (Memory.read s.buf 0 = s.cfg.tagApi → exec .bkind s = .next { s with rsp := some ⟨true, 1⟩ }) ∧
      (Memory.read s.buf 0 = s.cfg.tagError → exec .bkind s = .next { s with rsp := some ⟨true, 2⟩ }) ∧
      (Memory.read s.buf 0 ≠ s.cfg.tagData → Memory.read s.buf 0 ≠ s.cfg.tagApi →
        Memory.read s.buf 0 ≠ s.cfg.tagError →
        exec .bkind s = .next { s with rsp := some ⟨false, 0⟩ }))

/-- R170, R171: AWR writes the low byte of `OPB` at an index of the API body and nothing else, ARD
answers the byte at an index; an index out of the body is a value failure of both. -/
def Obligations.ApiBodyByteAccess : Prop :=
  ∀ (s : State) (x v : Word), s.apiBody.length = s.cfg.apiLen →
    decode ⟨0x39#8 ++ 0#8 ++ 0#8 ++ 0#8, x, v⟩ = .ok (.awr x v) ∧ decode ⟨0x3A#8 ++ 0#8 ++ 0#8 ++ 0#8, x, v⟩ = .ok (.ard x) ∧
    (x.toNat < s.cfg.apiLen →
      (∃ t, exec (.awr x v) s = .next t ∧ t.rsp = some ⟨true, 0⟩ ∧
        t = { s with apiBody := t.apiBody, rsp := t.rsp } ∧ t.apiBody.length = s.cfg.apiLen ∧
        t.apiBody[x.toNat]? = some (v.extractLsb' 0 8) ∧
        ∀ k, k ≠ x.toNat → t.apiBody[k]? = s.apiBody[k]?) ∧
      (∃ v', s.apiBody[x.toNat]? = some v' ∧
        exec (.ard x) s = .next { s with rsp := some ⟨true, v'.setWidth 32⟩ })) ∧
    (s.cfg.apiLen ≤ x.toNat → exec (.awr x v) s = .next { s with rsp := some ⟨false, 0⟩ } ∧
      exec (.ard x) s = .next { s with rsp := some ⟨false, 0⟩ })

/-- R172, R173: EWR and ERD, the same for the error body. -/
def Obligations.ErrorBodyByteAccess : Prop :=
  ∀ (s : State) (x v : Word), s.errBody.length = s.cfg.errLen →
    decode ⟨0x3B#8 ++ 0#8 ++ 0#8 ++ 0#8, x, v⟩ = .ok (.ewr x v) ∧ decode ⟨0x3C#8 ++ 0#8 ++ 0#8 ++ 0#8, x, v⟩ = .ok (.erd x) ∧
    (x.toNat < s.cfg.errLen →
      (∃ t, exec (.ewr x v) s = .next t ∧ t.rsp = some ⟨true, 0⟩ ∧
        t = { s with errBody := t.errBody, rsp := t.rsp } ∧ t.errBody.length = s.cfg.errLen ∧
        t.errBody[x.toNat]? = some (v.extractLsb' 0 8) ∧
        ∀ k, k ≠ x.toNat → t.errBody[k]? = s.errBody[k]?) ∧
      (∃ v', s.errBody[x.toNat]? = some v' ∧
        exec (.erd x) s = .next { s with rsp := some ⟨true, v'.setWidth 32⟩ })) ∧
    (s.cfg.errLen ≤ x.toNat → exec (.ewr x v) s = .next { s with rsp := some ⟨false, 0⟩ } ∧
      exec (.erd x) s = .next { s with rsp := some ⟨false, 0⟩ })

/-- R161: from every state that meets the invariants, SERD of any register followed by DESD into any
register succeeds, the target equals the source in every field but the hidden bytes, which are 0, and
FEQ of the two then answers 1. -/
def Obligations.SerializeRoundTrip : Prop :=
  ∀ (s : State) (a b : Byte), s.Inv → a.toNat < s.cfg.nframe → b.toNat < s.cfg.nframe →
    ∃ t u : State, exec (.serd a) s = .next t ∧ exec (.desd b) t = .next u ∧
      u.rsp = some ⟨true, BitVec.ofNat 32 (23 + (s.frame a).size)⟩ ∧
      u.frame b = { s.frame a with data := (u.frame b).data } ∧
      (∀ k : Fin 64, (u.frame b).data[k] =
        if k.val < (s.frame a).size then (s.frame a).data[k] else 0) ∧
      exec (.feq a b) u = .next { u with rsp := some ⟨true, 1⟩ }

/-- R161, last sentence: SERA followed by DESA, and SERE followed by DESE, succeed and leave `A` and `E`
unchanged, and with them all state but the byte buffer, `BLEN` and the response, which the serializing
command writes (R163, R164). -/
def Obligations.BodyRoundTrip : Prop :=
  ∀ s : State, s.Inv →
    (∃ t u : State, exec .sera s = .next t ∧ exec .desa t = .next u ∧
      u = { s with buf := u.buf, blen := u.blen,
                   rsp := some ⟨true, BitVec.ofNat 32 (1 + s.cfg.apiLen)⟩ }) ∧
    (∃ t u : State, exec .sere s = .next t ∧ exec .dese t = .next u ∧
      u = { s with buf := u.buf, blen := u.blen,
                   rsp := some ⟨true, BitVec.ofNat 32 (1 + s.cfg.errLen)⟩ })

/-! Filter. -/

/-- R191: FLAPP with a legal policy, a legal rule format, a range that is not empty and room in the
list appends exactly that rule and answers its index; on any other operands nothing changes. -/
def Obligations.FlappAppendsRule : Prop :=
  ∀ (s : State) (a b : Byte) (lo hi : Word), s.Inv →
    decode ⟨0x40#8 ++ a ++ b ++ 0#8, lo, hi⟩ = .ok (.flapp a b lo hi) ∧
    let good := a.toNat ≤ 1 ∧ b.toNat ≤ 4 ∧ lo.toNat ≤ hi.toNat ∧ s.flcnt.toNat < s.cfg.nfilt
    (good → ∃ t, exec (.flapp a b lo hi) s = .next t ∧ t.rsp = some ⟨true, s.flcnt⟩ ∧
      t = { s with rules := t.rules, flcnt := t.flcnt, rsp := t.rsp } ∧
      t.flcnt.toNat = s.flcnt.toNat + 1 ∧ t.rules.length = s.rules.length ∧
      (∃ r, t.rules[s.flcnt.toNat]? = some r ∧ r.policy.toNat = a.toNat ∧ r.rfmt.toNat = b.toNat ∧
        r.low = lo ∧ r.high = hi) ∧
      ∀ k, k ≠ s.flcnt.toNat → t.rules[k]? = s.rules[k]?) ∧
    (¬ good → exec (.flapp a b lo hi) s = .next { s with rsp := some ⟨false, 0⟩ })

/-- R192: FLREM of an index of the list moves the later rules down by one and leaves every other slot,
the old last one included, as it was; an index that names no rule is a value failure. -/
def Obligations.FlremClosesGap : Prop :=
  ∀ (s : State) (x y : Word), s.Inv →
    decode ⟨0x41#8 ++ 0#8 ++ 0#8 ++ 0#8, x, y⟩ = .ok (.flrem x) ∧
    (x.toNat < s.flcnt.toNat → ∃ t, exec (.flrem x) s = .next t ∧ t.rsp = some ⟨true, 0⟩ ∧
      t = { s with rules := t.rules, flcnt := t.flcnt, rsp := t.rsp } ∧
      t.flcnt.toNat + 1 = s.flcnt.toNat ∧
      ∀ k, t.rules[k]? = s.rules[if x.toNat ≤ k ∧ k + 1 < s.flcnt.toNat then k + 1 else k]?) ∧
    (s.flcnt.toNat ≤ x.toNat → exec (.flrem x) s = .next { s with rsp := some ⟨false, 0⟩ })

/-- R193, R194, R195, R196: FLCNT answers the number of rules. FLTEST answers the policy of the hit with
the greatest index, and 0 when no rule of the list hits; it changes nothing. -/
def Obligations.LastMatchingRuleWins : Prop :=
  ∀ (s : State) (a : Byte) (x y : Word), s.Inv → a.toNat < s.cfg.nframe →
    decode ⟨0x42#8 ++ 0#8 ++ 0#8 ++ 0#8, x, y⟩ = .ok .flcnt ∧ decode ⟨0x43#8 ++ a ++ 0#8 ++ 0#8, x, y⟩ = .ok (.fltest a) ∧
    exec .flcnt s = .next { s with rsp := some ⟨true, s.flcnt⟩ } ∧
    let f := s.frame a
    let hit (r : Rule) : Prop := (r.rfmt.toNat = 4 ∨ r.rfmt.toNat = f.ctrl.toNat % 4) ∧
      r.low.toNat ≤ f.id.toNat ∧ f.id.toNat ≤ r.high.toNat
    (∀ (k : Nat) (r : Rule), k < s.flcnt.toNat → s.rules[k]? = some r → hit r →
      (∀ (j : Nat) (q : Rule), k < j → j < s.flcnt.toNat → s.rules[j]? = some q → ¬ hit q) →
      exec (.fltest a) s = .next { s with rsp := some ⟨true, BitVec.ofNat 32 r.policy.toNat⟩ }) ∧
    ((∀ (j : Nat) (q : Rule), j < s.flcnt.toNat → s.rules[j]? = some q → ¬ hit q) →
      exec (.fltest a) s = .next { s with rsp := some ⟨true, 0⟩ })

/-- R198 (1): a successful FLAPP followed by FLREM of the index it returned restores `FLCNT` and the
list exactly. -/
def Obligations.AppendThenRemoveRestoresList : Prop :=
  ∀ (s t : State) (a b : Byte) (lo hi k : Word), s.Inv →
    exec (.flapp a b lo hi) s = .next t → t.rsp = some ⟨true, k⟩ →
    ∃ u, exec (.flrem k) t = .next u ∧ u.rsp = some ⟨true, 0⟩ ∧ u.flcnt = s.flcnt ∧
      u.ruleList = s.ruleList

/-- R198 (2): the verdict of FLTEST is a function of the list, the format and the identifier alone:
two states that agree on these answer alike, whatever else they hold. -/
def Obligations.VerdictDependsOnListFormatIdOnly : Prop :=
  ∀ (s t : State) (a b : Byte), a.toNat < s.cfg.nframe → b.toNat < t.cfg.nframe →
    s.ruleList = t.ruleList → (s.frame a).fmt = (t.frame b).fmt → (s.frame a).id = (t.frame b).id →
    ∃ v : Word, exec (.fltest a) s = .next { s with rsp := some ⟨true, v⟩ } ∧
      exec (.fltest b) t = .next { t with rsp := some ⟨true, v⟩ }

/-- R198 (3), with R190 and R195: a rule that was appended decides the verdict of every frame it hits and
changes the verdict of no other. -/
def Obligations.AppendedRuleDecidesWhatItHits : Prop :=
  ∀ (s t : State) (p b a : Byte) (lo hi k : Word), s.Inv → a.toNat < s.cfg.nframe →
    exec (.flapp p b lo hi) s = .next t → t.rsp = some ⟨true, k⟩ →
    let f := s.frame a
    let hit := (b.toNat = 4 ∨ b.toNat = f.ctrl.toNat % 4) ∧ lo.toNat ≤ f.id.toNat ∧
      f.id.toNat ≤ hi.toNat
    ∃ v w : Word, exec (.fltest a) s = .next { s with rsp := some ⟨true, v⟩ } ∧
      exec (.fltest a) t = .next { t with rsp := some ⟨true, w⟩ } ∧
      (hit → w.toNat = p.toNat) ∧ (¬ hit → w = v)

/-! Timestamp arithmetic. -/

/-- R212: TSADD. On two valid timestamps the exact sum of the times (R210) is written when its seconds
stay within `SECS_LIMIT`, and the invalid sentinel otherwise; on an invalid operand (R211) the
sentinel. `RV` tells which; only the destination's timestamp is written. -/
def Obligations.TsaddExactOrInvalid : Prop :=
  ∀ (s : State) (a b : Byte) (x y : Word), s.HasFrame a → s.HasFrame b →
    decode ⟨0x50#8 ++ a ++ b ++ 0#8, x, y⟩ = .ok (.tsadd a b) ∧
    ∃ t, exec (.tsadd a b) s = .next t ∧ s.OnlyFrame t a ∧
      let p := (s.frame a).ts
      let q := (s.frame b).ts
      let r := (t.frame a).ts
      let valid (z : Timestamp) : Prop :=
        z.sec.toNat ≤ s.cfg.secsLimit.toNat ∧ z.nsec.toNat ≤ 999999999
      t.frame a = { s.frame a with ts := r } ∧
      ((valid p ∧ valid q ∧ (p.nanos + q.nanos) / 1000000000 ≤ s.cfg.secsLimit.toNat) →
        valid r ∧ r.nanos = p.nanos + q.nanos ∧ t.rsp = some ⟨true, 1⟩) ∧
      (¬ (valid p ∧ valid q ∧ (p.nanos + q.nanos) / 1000000000 ≤ s.cfg.secsLimit.toNat) →
        r.sec = 0xFFFFFFFF ∧ r.nsec = 0xFFFFFFFF ∧ t.rsp = some ⟨true, 0⟩)

/-- R213: TSSUB. On two valid timestamps of which the minuend is not the smaller the exact difference is
written, and the invalid sentinel otherwise. `RV` tells which; only the destination's timestamp is
written. -/
def Obligations.TssubExactOrInvalid : Prop :=
  ∀ (s : State) (a b : Byte) (x y : Word), s.HasFrame a → s.HasFrame b →
    decode ⟨0x51#8 ++ a ++ b ++ 0#8, x, y⟩ = .ok (.tssub a b) ∧
    ∃ t, exec (.tssub a b) s = .next t ∧ s.OnlyFrame t a ∧
      let p := (s.frame a).ts
      let q := (s.frame b).ts
      let r := (t.frame a).ts
      let valid (z : Timestamp) : Prop :=
        z.sec.toNat ≤ s.cfg.secsLimit.toNat ∧ z.nsec.toNat ≤ 999999999
      t.frame a = { s.frame a with ts := r } ∧
      ((valid p ∧ valid q ∧ q.nanos ≤ p.nanos) →
        valid r ∧ r.nanos + q.nanos = p.nanos ∧ t.rsp = some ⟨true, 1⟩) ∧
      (¬ (valid p ∧ valid q ∧ q.nanos ≤ p.nanos) →
        r.sec = 0xFFFFFFFF ∧ r.nsec = 0xFFFFFFFF ∧ t.rsp = some ⟨true, 0⟩)

/-- R214 (1): if the sum of two timestamps is valid, subtracting the second gives the first again. -/
def Obligations.SubtractUndoesAdd : Prop :=
  ∀ (s t : State) (a b : Byte), s.HasFrame a → s.HasFrame b → a ≠ b →
    exec (.tsadd a b) s = .next t → t.rsp = some ⟨true, 1⟩ →
    ∃ u, exec (.tssub a b) t = .next u ∧ u.rsp = some ⟨true, 1⟩ ∧ u.frames = s.frames

/-! Laws between commands. -/

/-- R152 (5): SETRTR and SETOVR commute with each other and with every other setter, on one register or
on two: both orders give the same state and the same two answers. -/
def Obligations.FlagSettersCommute : Prop :=
  ∀ (x y : Instr) (s t u t' u' : State),
    ((∃ a imm, x = .setrtr a imm) ∧ (∃ b imm, y = .setovr b imm) ∨
     ((∃ a imm, x = .setrtr a imm) ∨ ∃ a imm, x = .setovr a imm) ∧
     ((∃ b v, y = .setid b v) ∨ (∃ b imm, y = .setdlc b imm) ∨ (∃ b imm v, y = .setdat b imm v) ∨
      (∃ b v, y = .setmrk b v) ∨ (∃ b v, y = .setusr b v) ∨ ∃ b v w, y = .setts b v w)) →
    exec x s = .next t → exec y t = .next u → exec y s = .next t' → exec x t' = .next u' →
    u = { u' with rsp := u.rsp } ∧ u.rsp = t'.rsp ∧ u'.rsp = t.rsp

/-- R214 (2): addition is commutative, the pair written is the same whichever register is the
destination. -/
def Obligations.AdditionCommutes : Prop :=
  ∀ (s t u : State) (a b : Byte), s.HasFrame a → s.HasFrame b →
    exec (.tsadd a b) s = .next t → exec (.tsadd b a) s = .next u →
    (t.frame a).ts = (u.frame b).ts ∧ t.rsp = u.rsp

/-! The whole machine. -/

/-- R44, R20: the invariants hold right after reset, for every legal configuration. -/
def Obligations.ResetMeetsInvariants : Prop :=
  (∀ c : Config, c.Legal → (State.resetOf c).Inv) ∧ State.reset.Inv

/-- R44: every step keeps the invariants, from every state that meets them, reachable or not. -/
def Obligations.StepKeepsInvariants : Prop :=
  ∀ s t : State, s.Inv → step s = .next t → t.Inv

/-- R94, R65, R80: under the invariants no step faults or refuses, every beat, legal or not, gets exactly
one response, nothing else gets one, and the step consumes exactly the event it serves. -/
def Obligations.StepAlwaysAnswers : Prop :=
  ∀ s : State, s.Inv → ∃ t, step s = .next t ∧ t.host = s.host.tail ∧ t.cfg = s.cfg ∧
    (t.rsp.isSome = true ↔ ∃ b, s.host.head? = some (.beat b))

/-- R90, R231, R236: whenever a command answers `OK = 0`, `RV` is 0 and the state is the state before it
but for the response, and for `STATUS.ILL` when the refusal is an illegal beat, which happens exactly
when a frame index is out of range (R86). -/
def Obligations.RefusedCommandChangesNothing : Prop :=
  ∀ (i : Instr) (s t : State) (rv : Word), exec i s = .next t → t.rsp = some ⟨false, rv⟩ →
    rv = 0 ∧ (i.WellFormed s.cfg → t = { s with rsp := t.rsp }) ∧
    (¬ i.WellFormed s.cfg → t = { s with status := s.status ||| 1, rsp := t.rsp })

/-- R37, R44 (9): `STATUS.ILL` never goes from 1 to 0 except by reset. -/
def Obligations.IllIsStickyUntilReset : Prop :=
  ∀ s t : State, step s = .next t → s.ill = true →
    (∀ lost, s.host.head? ≠ some (.rst lost)) → t.ill = true

/-- R28's table: the format bits of a register are written by no command but FINIT, DESD and FCOPY; RTR
by none but these, SETRTR and FCLR; OVR by none but these, SETOVR and FCLR. -/
def Obligations.FlagsHaveOnlyTheirWriters : Prop :=
  ∀ (i : Instr) (s t : State) (k : Nat) (f g : Frame), exec i s = .next t →
    s.frames[k]? = some f → t.frames[k]? = some g →
    (f.fmt ≠ g.fmt → (∃ a imm v, i = .finit a imm v) ∨ (∃ a, i = .desd a) ∨ ∃ a b, i = .fcopy a b) ∧
    (f.ctrl.getLsbD 2 ≠ g.ctrl.getLsbD 2 → (∃ a imm v, i = .finit a imm v) ∨ (∃ a, i = .desd a) ∨
      (∃ a b, i = .fcopy a b) ∨ (∃ a imm, i = .setrtr a imm) ∨ ∃ a, i = .fclr a) ∧
    (f.ctrl.getLsbD 3 ≠ g.ctrl.getLsbD 3 → (∃ a imm v, i = .finit a imm v) ∨ (∃ a, i = .desd a) ∨
      (∃ a b, i = .fcopy a b) ∨ (∃ a imm, i = .setovr a imm) ∨ ∃ a, i = .fclr a)

/-- R38, R61, R33, R34: `FLCNT` and the rule file are written by FLAPP and FLREM alone, the buffer by
SERD, SERA, SERE and BUFWR, `BLEN` by SERD, SERA, SERE and SETBLEN, `A` by AWR and DESA, `E` by EWR and
DESE; no command writes the parameters or the host's list. -/
def Obligations.RegistersHaveOnlyTheirWriters : Prop :=
  ∀ (i : Instr) (s t : State), exec i s = .next t →
    (t.flcnt ≠ s.flcnt ∨ t.rules ≠ s.rules → (∃ a b l h, i = .flapp a b l h) ∨ ∃ x, i = .flrem x) ∧
    (t.buf ≠ s.buf ∨ (∃ x, Memory.read t.buf x ≠ Memory.read s.buf x) →
      (∃ a, i = .serd a) ∨ i = .sera ∨ i = .sere ∨ ∃ x v, i = .bufwr x v) ∧
    (t.blen ≠ s.blen → (∃ a, i = .serd a) ∨ i = .sera ∨ i = .sere ∨ ∃ x, i = .setblen x) ∧
    (t.apiBody ≠ s.apiBody → (∃ x v, i = .awr x v) ∨ i = .desa) ∧
    (t.errBody ≠ s.errBody → (∃ x v, i = .ewr x v) ∨ i = .dese) ∧
    t.cfg = s.cfg ∧ t.host = s.host

/-- 10_state.md R43: a command changes no frame register but the one its field `a` names, and the rule
for the number of registers: a command that has no frame index changes none. -/
def Obligations.OtherFrameRegistersUntouched : Prop :=
  ∀ (i : Instr) (s t : State), exec i s = .next t →
    t.frames.length = s.frames.length ∧
    ∀ k, t.frames[k]? ≠ s.frames[k]? → ∃ a, i.frameIndices.head? = some a ∧ a.toNat = k

/-- R93, R260, R41: a host that chooses each beat from the responses so far is always answered: from
every state that meets the invariants, every such run of at most `n` beats ends, in a state that meets
them, with at most `n` further responses, and with exactly `n` when the host always has a beat. -/
def Obligations.EveryHostIsAnswered : Prop :=
  ∀ (choose : List Response → Option Beat) (n : Nat) (past : List Response) (s : State), s.Inv →
    ∃ (t : State) (all : List Response), runHost choose n past s = .next (t, all) ∧ t.Inv ∧
      t.host = s.host ∧ past <+: all ∧ all.length ≤ past.length + n ∧
      ((∀ q, (choose q).isSome = true) → all.length = past.length + n)
end

