-- ==== Sys2Proof/Laws/Codec.lean ====
section
/-! SUPPORT. The fields of a command word, and the four decoding forms on a word given by its fields. -/

namespace Sys2Proof

@[simp] theorem opField_commandWord (op a b c : Byte) : opField (commandWord op a b c) = op := by
  apply BitVec.eq_of_getLsbD_eq
  intro i hi
  simp only [opField, commandWord, BitVec.getLsbD_extractLsb', BitVec.getLsbD_append]
  simp [hi, show ¬ 24 + i < 8 by omega, show ¬ 24 + i - 8 < 8 by omega,
    show ¬ 24 + i - 8 - 8 < 8 by omega, show 24 + i - 8 - 8 - 8 = i by omega]

@[simp] theorem aField_commandWord (op a b c : Byte) : aField (commandWord op a b c) = a := by
  apply BitVec.eq_of_getLsbD_eq
  intro i hi
  simp only [aField, commandWord, BitVec.getLsbD_extractLsb', BitVec.getLsbD_append]
  simp [hi, show ¬ 16 + i < 8 by omega, show ¬ 16 + i - 8 < 8 by omega,
    show 16 + i - 8 - 8 = i by omega]

@[simp] theorem bField_commandWord (op a b c : Byte) : bField (commandWord op a b c) = b := by
  apply BitVec.eq_of_getLsbD_eq
  intro i hi
  simp only [bField, commandWord, BitVec.getLsbD_extractLsb', BitVec.getLsbD_append]
  simp [hi, show ¬ 8 + i < 8 by omega, show 8 + i - 8 = i by omega]

@[simp] theorem cField_commandWord (op a b c : Byte) : cField (commandWord op a b c) = c := by
  apply BitVec.eq_of_getLsbD_eq
  intro i hi
  simp only [cField, commandWord, BitVec.getLsbD_extractLsb', BitVec.getLsbD_append]
  simp [hi]

/-- Four bytes put together are the command word with these fields (R81). -/
theorem append_eq_commandWord (op a b c : Byte) : op ++ a ++ b ++ c = commandWord op a b c := rfl

/-- A command word is made of its four fields. -/
theorem commandWord_fields (cw : Word) :
    commandWord (opField cw) (aField cw) (bField cw) (cField cw) = cw := by
  apply BitVec.eq_of_getLsbD_eq
  intro i hi
  simp only [commandWord, opField, aField, bField, cField, BitVec.getLsbD_append,
    BitVec.getLsbD_extractLsb']
  by_cases h1 : i < 8
  · simp [h1]
  by_cases h2 : i - 8 < 8
  · simp [h1, h2, show 8 + (i - 8) = i by omega]
  by_cases h3 : i - 8 - 8 < 8
  · simp [h1, h2, h3, show 16 + (i - 8 - 8) = i by omega]
  · simp [h1, h2, h3, show i - 8 - 8 - 8 < 8 by omega, show 24 + (i - 8 - 8 - 8) = i by omega]

/-- Everything format N can decode to. -/
theorem formN_ok {cw : Word} {i j : Instr} (h : formN cw i = .ok j) :
    j = i ∧ aField cw = 0 ∧ bField cw = 0 ∧ cField cw = 0 := by
  unfold formN at h
  split at h
  · rename_i hz; injection h with h; exact ⟨h.symm, hz⟩
  · cases h

/-- Everything format F can decode to. -/
theorem formF_ok {cw : Word} {k : Byte → Instr} {j : Instr} (h : formF cw k = .ok j) :
    j = k (aField cw) ∧ bField cw = 0 ∧ cField cw = 0 := by
  unfold formF at h
  split at h
  · rename_i hz; injection h with h; exact ⟨h.symm, hz⟩
  · cases h

/-- Everything format FF can decode to. -/
theorem formFF_ok {cw : Word} {k : Byte → Byte → Instr} {j : Instr} (h : formFF cw k = .ok j) :
    j = k (aField cw) (bField cw) ∧ cField cw = 0 := by
  unfold formFF at h
  split at h
  · rename_i hz; injection h with h; exact ⟨h.symm, hz⟩
  · cases h

/-- Everything format FI can decode to. -/
theorem formFI_ok {cw : Word} {k : Byte → Byte → Instr} {j : Instr} (h : formFI cw k = .ok j) :
    j = k (aField cw) (cField cw) ∧ bField cw = 0 := by
  unfold formFI at h
  split at h
  · rename_i hz; injection h with h; exact ⟨h.symm, hz⟩
  · cases h

/-- Two command words are equal exactly when their fields are. -/
theorem commandWord_inj (op a b c op' a' b' c' : Byte) :
    commandWord op a b c = commandWord op' a' b' c' ↔ op = op' ∧ a = a' ∧ b = b' ∧ c = c' := by
  constructor
  · intro h
    have h1 := congrArg opField h
    have h2 := congrArg aField h
    have h3 := congrArg bField h
    have h4 := congrArg cField h
    simp only [opField_commandWord, aField_commandWord, bField_commandWord, cField_commandWord] at *
    exact ⟨h1, h2, h3, h4⟩
  · rintro ⟨rfl, rfl, rfl, rfl⟩
    rfl

/-- Masking a command word masks its fields. -/
theorem commandWord_and (op a b c op' a' b' c' : Byte) :
    commandWord op a b c &&& commandWord op' a' b' c' =
      commandWord (op &&& op') (a &&& a') (b &&& b') (c &&& c') := by
  apply BitVec.eq_of_getLsbD_eq
  intro i hi
  simp only [commandWord, BitVec.getLsbD_and, BitVec.getLsbD_append]
  split
  · rfl
  · split
    · rfl
    · split <;> rfl

/-- What it means that a command word selects the row `match`, `mask` of the opcode map, field by
field: each field of the mask is 0xFF or 0. -/
theorem selects_iff (cw : Word) (op a b c ma mb mc : Byte) :
    cw &&& commandWord 0xFF ma mb mc = commandWord op a b c ↔
      opField cw = op ∧ aField cw &&& ma = a ∧ bField cw &&& mb = b ∧ cField cw &&& mc = c := by
  have hff : ∀ x : Byte, x &&& 0xFF = x := by decide
  rw [← commandWord_fields cw, commandWord_and, commandWord_inj, commandWord_fields, hff]

end Sys2Proof
end

