-- ==== Sys2Proof/Laws/Memory.lean ====
section
/-! SUPPORT. The laws of the byte buffer: a read after a write, every other byte left alone, and the
canonical form kept by every operation. -/

namespace Sys2Proof.Machine

@[simp] theorem Memory.read_nil (a : Nat) : Memory.read [] a = 0 := rfl

/-- An address that no entry has reads as 0. -/
theorem Memory.read_of_not_listed (m : List Host.Cell) (a : Nat) (h : ∀ c ∈ m, c.1 ≠ a) :
    Memory.read m a = 0 := by
  induction m with
  | nil => rfl
  | cons c m ih =>
    obtain ⟨k, v⟩ := c
    have hk : k ≠ a := h (k, v) (by simp)
    simp [Memory.read, hk, ih fun c hc => h c (by simp [hc])]

/-- A write leaves every other byte as it was. -/
theorem Memory.read_write_other (m : List Host.Cell) (a b : Nat) (v : Byte) (h : b ≠ a) :
    Memory.read (Memory.write m a v) b = Memory.read m b := by
  have h' : a ≠ b := fun e => h e.symm
  induction m with
  | nil => simp only [Memory.write]; split <;> simp [Memory.read, h']
  | cons c m ih =>
    obtain ⟨k, w⟩ := c
    simp only [Memory.write]
    split
    · split <;> simp [Memory.read, h']
    · split
      · rename_i hak
        subst hak
        split <;> simp [Memory.read, h']
      · simp [Memory.read, ih]

/-- A read of the byte just written, in canonical form. -/
theorem Memory.read_write_self (m : List Host.Cell) (a : Nat) (v : Byte) (h : Memory.wf m) :
    Memory.read (Memory.write m a v) a = v := by
  induction m with
  | nil => simp only [Memory.write]; split <;> simp_all [Memory.read]
  | cons c m ih =>
    obtain ⟨k, w⟩ := c
    obtain ⟨hp, hz⟩ := h
    obtain ⟨hlt, hp⟩ := List.pairwise_cons.mp hp
    have hz' : ∀ c ∈ m, c.2 ≠ 0 := fun c hc => hz c (by simp [hc])
    simp only [Memory.write]
    split
    · rename_i hak
      split
      · rename_i hv
        rw [hv]
        apply Memory.read_of_not_listed
        intro c hc
        rcases List.mem_cons.mp hc with rfl | hc
        · simp; omega
        · have := hlt c hc; simp at this; omega
      · simp [Memory.read]
    · split
      · rename_i hak
        subst hak
        split
        · rename_i hv
          rw [hv]
          apply Memory.read_of_not_listed
          intro c hc
          have := hlt c hc; simp at this; omega
        · simp [Memory.read]
      · rename_i hne
        have : k ≠ a := fun e => hne e.symm
        simp [Memory.read, this, ih ⟨hp, hz'⟩]

/-- Every entry after a write was there before or is the written one. -/
theorem Memory.mem_write (m : List Host.Cell) (a : Nat) (v : Byte) (c : Host.Cell)
    (h : c ∈ Memory.write m a v) : c ∈ m ∨ (c = (a, v) ∧ v ≠ 0) := by
  induction m with
  | nil => simp only [Memory.write] at h; split at h <;> simp_all
  | cons d m ih =>
    obtain ⟨k, w⟩ := d
    simp only [Memory.write] at h
    split at h
    · split at h <;> (simp_all; try tauto)
    · split at h
      · split at h <;> (simp_all; try tauto)
      · rcases List.mem_cons.mp h with rfl | h
        · simp
        · rcases ih h with h | h
          · simp [h]
          · exact .inr h

/-- A write keeps the canonical form. -/
theorem Memory.write_wf (m : List Host.Cell) (a : Nat) (v : Byte) (h : Memory.wf m) :
    Memory.wf (Memory.write m a v) := by
  refine ⟨?_, fun c hc => ?_⟩
  · obtain ⟨hp, -⟩ := h
    induction m with
    | nil => simp only [Memory.write]; split <;> simp
    | cons d m ih =>
      obtain ⟨k, w⟩ := d
      obtain ⟨hlt, hm⟩ := List.pairwise_cons.mp hp
      simp only [Memory.write]
      split
      · rename_i hak
        split
        · exact List.pairwise_cons.mpr ⟨hlt, hm⟩
        · refine List.pairwise_cons.mpr ⟨fun c hc => ?_, List.pairwise_cons.mpr ⟨hlt, hm⟩⟩
          rcases List.mem_cons.mp hc with rfl | hc
          · exact hak
          · exact Nat.lt_trans hak (hlt c hc)
      · split
        · rename_i hak
          subst hak
          split
          · exact hm
          · exact List.pairwise_cons.mpr ⟨hlt, hm⟩
        · rename_i hlk hne
          refine List.pairwise_cons.mpr ⟨fun c hc => ?_, ih hm⟩
          rcases Memory.mem_write m a v c hc with hc | ⟨rfl, -⟩
          · exact hlt c hc
          · simp; omega
  · rcases Memory.mem_write m a v c hc with hc | ⟨rfl, hv⟩
    · exact h.2 c hc
    · exact hv

/-- Writing a list keeps the canonical form. -/
theorem Memory.writeList_wf (l : List Byte) : ∀ (m : List Host.Cell) (a : Nat), Memory.wf m →
    Memory.wf (Memory.writeList m a l) := by
  induction l with
  | nil => exact fun m a h => h
  | cons v l ih => exact fun m a h => ih _ _ (Memory.write_wf m a v h)

/-- Every entry after writing a list was there before or stands at one of the written addresses. -/
theorem Memory.mem_writeList (l : List Byte) : ∀ (m : List Host.Cell) (a : Nat) (c : Host.Cell),
    c ∈ Memory.writeList m a l → c ∈ m ∨ (a ≤ c.1 ∧ c.1 < a + l.length) := by
  induction l with
  | nil => exact fun m a c h => .inl h
  | cons v l ih =>
    intro m a c h
    rcases ih _ _ c h with h | h
    · rcases Memory.mem_write m a v c h with h | ⟨rfl, -⟩
      · exact .inl h
      · simp
    · simp; omega

/-- What a byte reads as after a list has been written. -/
theorem Memory.read_writeList (l : List Byte) : ∀ (m : List Host.Cell) (a x : Nat), Memory.wf m →
    Memory.read (Memory.writeList m a l) x =
      if a ≤ x ∧ x < a + l.length then byteOf l (x - a) else Memory.read m x := by
  induction l with
  | nil =>
    intro m a x _
    rw [if_neg (by simp only [List.length_nil]; omega)]
    rfl
  | cons v l ih =>
    intro m a x h
    simp only [Memory.writeList]
    rw [ih _ _ x (Memory.write_wf m a v h)]
    by_cases hx : x = a
    · subst hx
      rw [if_neg (by omega), if_pos (by simp), Memory.read_write_self m x v h]
      simp [byteOf]
    · rw [Memory.read_write_other m a x v hx]
      by_cases hin : a + 1 ≤ x ∧ x < a + 1 + l.length
      · rw [if_pos hin, if_pos (by simp only [List.length_cons]; omega)]
        obtain ⟨k, rfl⟩ : ∃ k, x = a + 1 + k := ⟨x - (a + 1), by omega⟩
        have h1 : a + 1 + k - (a + 1) = k := by omega
        have h2 : a + 1 + k - a = k + 1 := by omega
        simp [h1, h2, byteOf]
      · rw [if_neg hin, if_neg (by simp only [List.length_cons]; omega)]

@[simp] theorem Memory.readList_length (m : List Host.Cell) (a n : Nat) :
    (Memory.readList m a n).length = n := by simp [Memory.readList]

/-- Byte `k` of the `n` bytes read from `a` on. -/
theorem Memory.byteOf_readList (m : List Host.Cell) (a n k : Nat) (h : k < n) :
    byteOf (Memory.readList m a n) k = Memory.read m (a + k) := by
  simp [byteOf, Memory.readList, List.getD, h]

@[simp] theorem byteOf_drop (l : List Byte) (k j : Nat) :
    byteOf (l.drop k) j = byteOf l (k + j) := by
  simp [byteOf, List.getD]

/-- Byte `j` of a list cut off after `n` bytes. -/
theorem byteOf_take (l : List Byte) (n j : Nat) :
    byteOf (l.take n) j = if j < n then byteOf l j else 0 := by
  simp only [byteOf, List.getD, List.getElem?_take]
  split <;> simp

/-- Byte `j` of a concatenation. -/
theorem byteOf_append (l m : List Byte) (j : Nat) :
    byteOf (l ++ m) j = if j < l.length then byteOf l j else byteOf m (j - l.length) := by
  simp only [byteOf, List.getD, List.getElem?_append]
  split <;> rfl

/-- Past the end of a list a byte is 0. -/
theorem byteOf_of_length_le (l : List Byte) (j : Nat) (h : l.length ≤ j) : byteOf l j = 0 := by
  simp [byteOf, List.getD, h]

/-- Two lists of one length with the same bytes are equal. -/
theorem eq_of_byteOf (l m : List Byte) (hl : l.length = m.length)
    (h : ∀ k, k < l.length → byteOf l k = byteOf m k) : l = m := by
  apply List.ext_getElem hl
  intro k h1 h2
  have := h k h1
  simpa [byteOf, List.getD, h1, h2] using this

/-- The bytes read back after a list was written over them. -/
theorem Memory.readList_writeList (m : List Host.Cell) (a : Nat) (l : List Byte) (h : Memory.wf m) :
    Memory.readList (Memory.writeList m a l) a l.length = l := by
  apply eq_of_byteOf _ _ (by simp)
  intro k hk
  simp only [Memory.readList_length] at hk
  rw [Memory.byteOf_readList _ _ _ _ hk, Memory.read_writeList l m a _ h, if_pos (by omega)]
  congr 1
  omega

end Sys2Proof.Machine
end

