-- ==== Sys2Proof/Laws/State.lean ====
section
/-! SUPPORT. One lemma per field per named update of the state, so that no proof unfolds a record update. -/

namespace Sys2Proof.Machine

@[simp] theorem State.setFrame_cfg (s : State) (a : Byte) (f : Frame) :
    (s.setFrame a f).cfg = s.cfg := rfl

@[simp] theorem State.setFrame_frames (s : State) (a : Byte) (f : Frame) :
    (s.setFrame a f).frames = s.frames.set a.toNat f := rfl

@[simp] theorem State.setFrame_apiBody (s : State) (a : Byte) (f : Frame) :
    (s.setFrame a f).apiBody = s.apiBody := rfl

@[simp] theorem State.setFrame_errBody (s : State) (a : Byte) (f : Frame) :
    (s.setFrame a f).errBody = s.errBody := rfl

@[simp] theorem State.setFrame_rules (s : State) (a : Byte) (f : Frame) :
    (s.setFrame a f).rules = s.rules := rfl

@[simp] theorem State.setFrame_flcnt (s : State) (a : Byte) (f : Frame) :
    (s.setFrame a f).flcnt = s.flcnt := rfl

@[simp] theorem State.setFrame_buf (s : State) (a : Byte) (f : Frame) :
    (s.setFrame a f).buf = s.buf := rfl

@[simp] theorem State.setFrame_blen (s : State) (a : Byte) (f : Frame) :
    (s.setFrame a f).blen = s.blen := rfl

@[simp] theorem State.setFrame_status (s : State) (a : Byte) (f : Frame) :
    (s.setFrame a f).status = s.status := rfl

@[simp] theorem State.setFrame_host (s : State) (a : Byte) (f : Frame) :
    (s.setFrame a f).host = s.host := rfl

@[simp] theorem State.setFrame_rsp (s : State) (a : Byte) (f : Frame) :
    (s.setFrame a f).rsp = s.rsp := rfl

@[simp] theorem State.respond_cfg (s : State) (ok : Bool) (rv : Word) :
    (s.respond ok rv).cfg = s.cfg := rfl

@[simp] theorem State.respond_frames (s : State) (ok : Bool) (rv : Word) :
    (s.respond ok rv).frames = s.frames := rfl

@[simp] theorem State.respond_apiBody (s : State) (ok : Bool) (rv : Word) :
    (s.respond ok rv).apiBody = s.apiBody := rfl

@[simp] theorem State.respond_errBody (s : State) (ok : Bool) (rv : Word) :
    (s.respond ok rv).errBody = s.errBody := rfl

@[simp] theorem State.respond_rules (s : State) (ok : Bool) (rv : Word) :
    (s.respond ok rv).rules = s.rules := rfl

@[simp] theorem State.respond_flcnt (s : State) (ok : Bool) (rv : Word) :
    (s.respond ok rv).flcnt = s.flcnt := rfl

@[simp] theorem State.respond_buf (s : State) (ok : Bool) (rv : Word) :
    (s.respond ok rv).buf = s.buf := rfl

@[simp] theorem State.respond_blen (s : State) (ok : Bool) (rv : Word) :
    (s.respond ok rv).blen = s.blen := rfl

@[simp] theorem State.respond_status (s : State) (ok : Bool) (rv : Word) :
    (s.respond ok rv).status = s.status := rfl

@[simp] theorem State.respond_host (s : State) (ok : Bool) (rv : Word) :
    (s.respond ok rv).host = s.host := rfl

@[simp] theorem State.respond_rsp (s : State) (ok : Bool) (rv : Word) :
    (s.respond ok rv).rsp = some ⟨ok, rv⟩ := rfl

@[simp] theorem State.appendRule_cfg (s : State) (r : Rule) :
    (s.appendRule r).cfg = s.cfg := rfl

@[simp] theorem State.appendRule_frames (s : State) (r : Rule) :
    (s.appendRule r).frames = s.frames := rfl

@[simp] theorem State.appendRule_apiBody (s : State) (r : Rule) :
    (s.appendRule r).apiBody = s.apiBody := rfl

@[simp] theorem State.appendRule_errBody (s : State) (r : Rule) :
    (s.appendRule r).errBody = s.errBody := rfl

@[simp] theorem State.appendRule_rules (s : State) (r : Rule) :
    (s.appendRule r).rules = s.rules.set s.flcnt.toNat r := rfl

@[simp] theorem State.appendRule_flcnt (s : State) (r : Rule) :
    (s.appendRule r).flcnt = s.flcnt + 1 := rfl

@[simp] theorem State.appendRule_buf (s : State) (r : Rule) :
    (s.appendRule r).buf = s.buf := rfl

@[simp] theorem State.appendRule_blen (s : State) (r : Rule) :
    (s.appendRule r).blen = s.blen := rfl

@[simp] theorem State.appendRule_status (s : State) (r : Rule) :
    (s.appendRule r).status = s.status := rfl

@[simp] theorem State.appendRule_host (s : State) (r : Rule) :
    (s.appendRule r).host = s.host := rfl

@[simp] theorem State.appendRule_rsp (s : State) (r : Rule) :
    (s.appendRule r).rsp = s.rsp := rfl

@[simp] theorem State.removeRule_cfg (s : State) (i : Nat) :
    (s.removeRule i).cfg = s.cfg := rfl

@[simp] theorem State.removeRule_frames (s : State) (i : Nat) :
    (s.removeRule i).frames = s.frames := rfl

@[simp] theorem State.removeRule_apiBody (s : State) (i : Nat) :
    (s.removeRule i).apiBody = s.apiBody := rfl

@[simp] theorem State.removeRule_errBody (s : State) (i : Nat) :
    (s.removeRule i).errBody = s.errBody := rfl

@[simp] theorem State.removeRule_rules (s : State) (i : Nat) :
    (s.removeRule i).rules = closeGap s.rules i s.flcnt.toNat := rfl

@[simp] theorem State.removeRule_flcnt (s : State) (i : Nat) :
    (s.removeRule i).flcnt = s.flcnt - 1 := rfl

@[simp] theorem State.removeRule_buf (s : State) (i : Nat) :
    (s.removeRule i).buf = s.buf := rfl

@[simp] theorem State.removeRule_blen (s : State) (i : Nat) :
    (s.removeRule i).blen = s.blen := rfl

@[simp] theorem State.removeRule_status (s : State) (i : Nat) :
    (s.removeRule i).status = s.status := rfl

@[simp] theorem State.removeRule_host (s : State) (i : Nat) :
    (s.removeRule i).host = s.host := rfl

@[simp] theorem State.removeRule_rsp (s : State) (i : Nat) :
    (s.removeRule i).rsp = s.rsp := rfl

@[simp] theorem State.offer_cfg (s : State) (b : Beat) :
    (s.offer b).cfg = s.cfg := rfl

@[simp] theorem State.offer_frames (s : State) (b : Beat) :
    (s.offer b).frames = s.frames := rfl

@[simp] theorem State.offer_apiBody (s : State) (b : Beat) :
    (s.offer b).apiBody = s.apiBody := rfl

@[simp] theorem State.offer_errBody (s : State) (b : Beat) :
    (s.offer b).errBody = s.errBody := rfl

@[simp] theorem State.offer_rules (s : State) (b : Beat) :
    (s.offer b).rules = s.rules := rfl

@[simp] theorem State.offer_flcnt (s : State) (b : Beat) :
    (s.offer b).flcnt = s.flcnt := rfl

@[simp] theorem State.offer_buf (s : State) (b : Beat) :
    (s.offer b).buf = s.buf := rfl

@[simp] theorem State.offer_blen (s : State) (b : Beat) :
    (s.offer b).blen = s.blen := rfl

@[simp] theorem State.offer_status (s : State) (b : Beat) :
    (s.offer b).status = s.status := rfl

@[simp] theorem State.offer_host (s : State) (b : Beat) :
    (s.offer b).host = .beat b :: s.host := rfl

@[simp] theorem State.offer_rsp (s : State) (b : Beat) :
    (s.offer b).rsp = s.rsp := rfl

@[simp] theorem State.resetOf_cfg (c : Config) :
    (State.resetOf c).cfg = c := rfl

@[simp] theorem State.resetOf_frames (c : Config) :
    (State.resetOf c).frames = List.replicate c.nframe Frame.zero := rfl

@[simp] theorem State.resetOf_apiBody (c : Config) :
    (State.resetOf c).apiBody = List.replicate c.apiLen 0 := rfl

@[simp] theorem State.resetOf_errBody (c : Config) :
    (State.resetOf c).errBody = List.replicate c.errLen 0 := rfl

@[simp] theorem State.resetOf_rules (c : Config) :
    (State.resetOf c).rules = List.replicate c.nfilt Rule.zero := rfl

@[simp] theorem State.resetOf_flcnt (c : Config) :
    (State.resetOf c).flcnt = 0 := rfl

@[simp] theorem State.resetOf_buf (c : Config) :
    (State.resetOf c).buf = [] := rfl

@[simp] theorem State.resetOf_blen (c : Config) :
    (State.resetOf c).blen = 0 := rfl

@[simp] theorem State.resetOf_status (c : Config) :
    (State.resetOf c).status = 0 := rfl

@[simp] theorem State.resetOf_host (c : Config) :
    (State.resetOf c).host = [] := rfl

@[simp] theorem State.resetOf_rsp (c : Config) :
    (State.resetOf c).rsp = none := rfl

@[simp] theorem serveReset_cfg (s : State) :
    (serveReset s).cfg = s.cfg := rfl

@[simp] theorem serveReset_frames (s : State) :
    (serveReset s).frames = List.replicate s.cfg.nframe Frame.zero := rfl

@[simp] theorem serveReset_apiBody (s : State) :
    (serveReset s).apiBody = List.replicate s.cfg.apiLen 0 := rfl

@[simp] theorem serveReset_errBody (s : State) :
    (serveReset s).errBody = List.replicate s.cfg.errLen 0 := rfl

@[simp] theorem serveReset_rules (s : State) :
    (serveReset s).rules = List.replicate s.cfg.nfilt Rule.zero := rfl

@[simp] theorem serveReset_flcnt (s : State) :
    (serveReset s).flcnt = 0 := rfl

@[simp] theorem serveReset_buf (s : State) :
    (serveReset s).buf = [] := rfl

@[simp] theorem serveReset_blen (s : State) :
    (serveReset s).blen = 0 := rfl

@[simp] theorem serveReset_status (s : State) :
    (serveReset s).status = 0 := rfl

@[simp] theorem serveReset_host (s : State) :
    (serveReset s).host = s.host := rfl

@[simp] theorem serveReset_rsp (s : State) :
    (serveReset s).rsp = none := rfl

@[simp] theorem serveNothing_cfg (s : State) :
    (serveNothing s).cfg = s.cfg := rfl

@[simp] theorem serveNothing_frames (s : State) :
    (serveNothing s).frames = s.frames := rfl

@[simp] theorem serveNothing_apiBody (s : State) :
    (serveNothing s).apiBody = s.apiBody := rfl

@[simp] theorem serveNothing_errBody (s : State) :
    (serveNothing s).errBody = s.errBody := rfl

@[simp] theorem serveNothing_rules (s : State) :
    (serveNothing s).rules = s.rules := rfl

@[simp] theorem serveNothing_flcnt (s : State) :
    (serveNothing s).flcnt = s.flcnt := rfl

@[simp] theorem serveNothing_buf (s : State) :
    (serveNothing s).buf = s.buf := rfl

@[simp] theorem serveNothing_blen (s : State) :
    (serveNothing s).blen = s.blen := rfl

@[simp] theorem serveNothing_status (s : State) :
    (serveNothing s).status = s.status := rfl

@[simp] theorem serveNothing_host (s : State) :
    (serveNothing s).host = s.host := rfl

@[simp] theorem serveNothing_rsp (s : State) :
    (serveNothing s).rsp = none := rfl

end Sys2Proof.Machine
end

