-- ==== Sys2Proof/Laws/Ops.lean ====
section
/-! SUPPORT. One specification lemma per shared operation, which says everything the operation can do. -/

namespace Sys2Proof.Machine

/-! Responses and operand forms. -/

@[simp] theorem State.done_eq (s : State) (rv : Word) : s.done rv = .next (s.respond true rv) := rfl

@[simp] theorem State.fail_eq (s : State) : s.fail = .next (s.respond false 0) := rfl

@[simp] theorem State.illegal_eq (s : State) :
    s.illegal = .next { s with status := s.status ||| 1, rsp := some ⟨false, 0⟩ } := rfl

/-- A legal frame index: the command goes on with the register. -/
theorem State.withFrame_of_lt (s : State) (a : Byte) (k : Frame → Result)
    (h : a.toNat < s.cfg.nframe) : s.withFrame a k = k (s.frame a) := if_pos h

/-- A frame index out of range: `illegal()` (R86). -/
theorem State.withFrame_of_not_lt (s : State) (a : Byte) (k : Frame → Result)
    (h : ¬ a.toNat < s.cfg.nframe) :
    s.withFrame a k = .next { s with status := s.status ||| 1, rsp := some ⟨false, 0⟩ } := if_neg h

/-- Both frame indices legal. -/
theorem State.withFrames_of_lt (s : State) (a b : Byte) (k : Frame → Frame → Result)
    (ha : a.toNat < s.cfg.nframe) (hb : b.toNat < s.cfg.nframe) :
    s.withFrames a b k = k (s.frame a) (s.frame b) := by
  simp [State.withFrames, State.withFrame, ha, hb]

/-- Everything `withFrame` can do when it answers a next state. -/
theorem State.withFrame_next {s t : State} {a : Byte} {k : Frame → Result}
    (h : s.withFrame a k = .next t) :
    (a.toNat < s.cfg.nframe ∧ k (s.frame a) = .next t) ∨
    (¬ a.toNat < s.cfg.nframe ∧
      t = { s with status := s.status ||| 1, rsp := some ⟨false, 0⟩ }) := by
  by_cases ha : a.toNat < s.cfg.nframe
  · exact .inl ⟨ha, by rwa [s.withFrame_of_lt a k ha] at h⟩
  · rw [s.withFrame_of_not_lt a k ha] at h
    exact .inr ⟨ha, by injection h with h; exact h.symm⟩

/-! Frame registers. -/

/-- Reading the register that was written. -/
theorem State.frame_setFrame_self (s : State) (a : Byte) (f : Frame) (h : s.HasFrame a) :
    (s.setFrame a f).frame a = f := by
  simp [State.frame, h.1, h.2]

/-- Reading another register than the one written. -/
theorem State.frame_setFrame_other (s : State) (a b : Byte) (f : Frame) (h : b ≠ a) :
    (s.setFrame a f).frame b = s.frame b := by
  have : a.toNat ≠ b.toNat := fun e => h (BitVec.eq_of_toNat_eq e.symm)
  simp [State.frame, this]

/-- Writing one register and responding touches nothing else. -/
theorem State.onlyFrame_setFrame (s : State) (a : Byte) (f : Frame) (ok : Bool) (rv : Word) :
    s.OnlyFrame ((s.setFrame a f).respond ok rv) a :=
  ⟨rfl, by simp, fun k hk => by simp [hk.symm]⟩

@[simp] theorem State.frame_respond (s : State) (ok : Bool) (rv : Word) (a : Byte) :
    (s.respond ok rv).frame a = s.frame a := rfl

/-- A register that exists is one of the list. -/
theorem State.frame_mem (s : State) (a : Byte) (h : s.HasFrame a) : s.frame a ∈ s.frames := by
  have : a.toNat < s.frames.length := by rw [h.2]; exact h.1
  simp [State.frame, this]

/-- Under the invariants a legal index names a register. -/
theorem State.Inv.hasFrame {s : State} (h : s.Inv) {a : Byte} (ha : a.toNat < s.cfg.nframe) :
    s.HasFrame a := ⟨ha, h.frames⟩

/-- What a command that only reads one register answers, for a legal index. -/
theorem State.readFrame_of_lt (s : State) (a : Byte) (g : Frame → Word)
    (h : a.toNat < s.cfg.nframe) :
    s.readFrame a g = .next { s with rsp := some ⟨true, g (s.frame a)⟩ } := s.withFrame_of_lt a _ h

/-- What a command that rewrites one register and cannot fail does, for a legal index. -/
theorem State.updateFrame_of_hasFrame (s : State) (a : Byte) (g : Frame → Frame)
    (h : s.HasFrame a) :
    ∃ t, s.updateFrame a g = .next t ∧ t.rsp = some ⟨true, 0⟩ ∧ s.OnlyFrame t a ∧
      t.frame a = g (s.frame a) :=
  ⟨_, s.withFrame_of_lt a _ h.1, rfl, s.onlyFrame_setFrame a _ _ _, s.frame_setFrame_self a _ h⟩

/-! Flags. -/

/-- Every bit of a control byte after one bit is written (R148, R149). -/
theorem ctrlSetBit_get (c : Byte) (j : Nat) (hj : j < 8) (v : BitVec 1) (k : Nat) :
    (ctrlSetBit c j v).getLsbD k = if k = j then v.getLsbD 0 else c.getLsbD k := by
  by_cases hk : k < 8
  · by_cases h : k = j
    · subst h
      simp [ctrlSetBit, hk]
    · by_cases h2 : k < j
      · simp [ctrlSetBit, hk, h, h2]
      · have h3 : ¬ k - j = 0 := by omega
        have h4 : v.getLsbD (k - j) = false := BitVec.getLsbD_of_ge _ _ (by omega)
        simp [ctrlSetBit, hk, h, h2, h3, h4]
  · rw [if_neg (by omega), BitVec.getLsbD_of_ge _ _ (by omega), BitVec.getLsbD_of_ge _ _ (by omega)]

/-! Sizes and the payload store. -/

/-- A resolved size is at most 64, and at most 8 for a classic format (R44 (4)). -/
theorem dataSize_le (f : BitVec 2) (d : BitVec 4) :
    dataSize f d ≤ 64 ∧ (f.getLsbD 1 = false → dataSize f d ≤ 8) := by
  revert f d; decide

theorem Frame.size_le (f : Frame) : f.size ≤ 64 := (dataSize_le _ _).1

@[simp] theorem Frame.payload_length (f : Frame) : f.payload.length = f.size := by
  simp [Frame.payload, f.size_le]

/-- Byte `k` of the store is byte `k` of the list of its bytes. -/
theorem byteOf_store (v : Vector Byte 64) (k : Fin 64) : byteOf v.toList k.val = v[k] := by
  simp [byteOf, List.getD, k.isLt]

/-- Byte `k` of a store made from a list. -/
@[simp] theorem storeOf_get (l : List Byte) (k : Fin 64) : (storeOf l)[k] = byteOf l k.val := by
  simp [storeOf]

/-- Byte `k` of the visible payload. -/
theorem Frame.byteOf_payload (f : Frame) (k : Fin 64) (h : k.val < f.size) :
    byteOf f.payload k.val = f.data[k] := by
  rw [Frame.payload, byteOf_take, if_pos h, byteOf_store]

/-- Two frames have the same first `n` payload bytes. -/
theorem take_store_eq_iff (f g : Frame) (n : Nat) :
    f.data.toList.take n = g.data.toList.take n ↔
      ∀ k : Fin 64, k.val < n → f.data[k] = g.data[k] := by
  constructor
  · intro h k hk
    have := congrArg (byteOf · k.val) h
    simpa only [byteOf_take, hk, if_true, byteOf_store] using this
  · intro h
    apply eq_of_byteOf _ _ (by simp)
    intro k hk
    simp only [List.length_take, Vector.length_toList, Nat.lt_min] at hk
    have := h ⟨k, hk.2⟩ hk.1
    rw [← byteOf_store, ← byteOf_store] at this
    simpa only [byteOf_take, hk.1, if_true] using this

/-- A byte written with `setByte`, and every other byte. -/
theorem Frame.setByte_get (f : Frame) (i : Nat) (v : Byte) (k : Fin 64) :
    (f.setByte i v).data[k] = if k.val = i then v else f.data[k] := by
  have hk := k.isLt
  simp only [Frame.setByte, Fin.getElem_fin]
  by_cases h : k.val = i
  · subst h; simp
  · simp [h, Ne.symm h]

/-- Writing into the payload store leaves every other field. -/
@[simp] theorem Frame.setByte_size (f : Frame) (i : Nat) (v : Byte) : (f.setByte i v).size = f.size := rfl

/-! Byte order. -/

@[simp] theorem be32_length (v : Word) : (be32 v).length = 4 := rfl

@[simp] theorem unbe32_be32 (v : Word) (l : List Byte) : unbe32 (be32 v ++ l) = v := by
  simp only [unbe32, be32, byteOf, List.cons_append, List.getD_cons_zero, List.getD_cons_succ]
  apply BitVec.eq_of_getLsbD_eq
  intro i hi
  simp only [BitVec.getLsbD_append, BitVec.getLsbD_extractLsb']
  have h4 : i < 8 ∨ (8 ≤ i ∧ i < 16) ∨ (16 ≤ i ∧ i < 24) ∨ (24 ≤ i ∧ i < 32) := by omega
  rcases h4 with h | ⟨h, h'⟩ | ⟨h, h'⟩ | ⟨h, h'⟩
  · simp [h]
  · simp [show ¬ i < 8 by omega, show i - 8 < 8 by omega, show 8 + (i - 8) = i by omega]
  · simp [show ¬ i < 8 by omega, show ¬ i - 8 < 8 by omega, show i - 8 - 8 < 8 by omega,
      show 16 + (i - 8 - 8) = i by omega]
  · simp [show ¬ i < 8 by omega, show ¬ i - 8 < 8 by omega, show ¬ i - 8 - 8 < 8 by omega,
      show i - 8 - 8 - 8 < 8 by omega, show 24 + (i - 8 - 8 - 8) = i by omega]

/-- The masked identifier is masked (R25). -/
theorem idMask_idem (f : BitVec 2) (v : Word) : (v &&& idMask f) &&& idMask f = v &&& idMask f := by
  rw [BitVec.and_assoc, BitVec.and_self]

/-! Buffer operations. -/

/-- `memWrite` inside the buffer. -/
theorem State.memWrite_of_le (s : State) (addr : Nat) (l : List Byte) (k : State → Result)
    (h : addr + l.length ≤ s.cfg.bufsz) :
    s.memWrite addr l k = k { s with buf := Memory.writeList s.buf addr l } := if_pos h

/-- `memRead` inside the buffer. -/
theorem State.memRead_of_le (s : State) (addr n : Nat) (k : List Byte → Result)
    (h : addr + n ≤ s.cfg.bufsz) : s.memRead addr n k = k (Memory.readList s.buf addr n) := if_pos h

/-- The valid bytes, when `BLEN` is within the buffer. -/
theorem State.validBytes_of_le (s : State) (k : List Byte → Result) (h : s.blen.toNat ≤ s.cfg.bufsz) :
    s.validBytes k = k (Memory.readList s.buf 0 s.blen.toNat) :=
  s.memRead_of_le 0 _ k (by omega)

/-- Everything `validBytes` can do when it answers a next state. -/
theorem State.validBytes_next {s t : State} {k : List Byte → Result} (h : s.validBytes k = .next t) :
    k (Memory.readList s.buf 0 s.blen.toNat) = .next t := by
  unfold State.validBytes State.memRead at h
  split at h
  · exact h
  · cases h

/-- Storing an image that fits: the bytes at offset 0, `BLEN`, and the answer. -/
theorem State.storeImage_of_le (s : State) (l : List Byte) (h : l.length ≤ s.cfg.bufsz) :
    s.storeImage l = .next { s with
      buf := Memory.writeList s.buf 0 l, blen := BitVec.ofNat 32 l.length,
      rsp := some ⟨true, BitVec.ofNat 32 l.length⟩ } :=
  s.memWrite_of_le 0 l _ (by omega)

/-- Everything `storeImage` can do when it answers a next state. -/
theorem State.storeImage_next {s t : State} {l : List Byte} (h : s.storeImage l = .next t) :
    l.length ≤ s.cfg.bufsz ∧ t = { s with
      buf := Memory.writeList s.buf 0 l, blen := BitVec.ofNat 32 l.length,
      rsp := some ⟨true, BitVec.ofNat 32 l.length⟩ } := by
  by_cases hl : l.length ≤ s.cfg.bufsz
  · rw [s.storeImage_of_le l hl] at h
    exact ⟨hl, by injection h with h; exact h.symm⟩
  · rw [State.storeImage, State.memWrite, if_neg (by omega)] at h
    cases h

/-! Images. -/

@[simp] theorem dataImage_length (c : Config) (f : Frame) : (dataImage c f).length = 23 + f.size := by
  simp [dataImage]; omega

@[simp] theorem bodyImage_length (tag : Byte) (l : List Byte) :
    (bodyImage tag l).length = 1 + l.length := by
  simp [bodyImage]; omega

/-! The rule file. -/

@[simp] theorem closeGap_length (l : List Rule) (i n : Nat) : (closeGap l i n).length = l.length := by
  simp [closeGap]

/-- Slot `k` after a gap is closed (R192). -/
theorem closeGap_get (l : List Rule) (i n k : Nat) (h : n ≤ l.length) :
    (closeGap l i n)[k]? = l[if i ≤ k ∧ k + 1 < n then k + 1 else k]? := by
  simp only [closeGap, List.getElem?_mapIdx]
  by_cases hk : k < l.length
  · by_cases hc : i ≤ k ∧ k + 1 < n
    · have : k + 1 < l.length := by omega
      simp [hc, hk, this]
    · simp [hc, hk]
  · have h1 : l[k]? = none := by simp; omega
    have hc : ¬ (i ≤ k ∧ k + 1 < n) := by omega
    simp [h1, hc]

/-- One more rule at the end of the list overrides the verdict exactly when it hits (R195). -/
theorem verdict_append (l : List Rule) (r : Rule) (f : Frame) :
    verdict (l ++ [r]) f = if r.hits f then r.policy else verdict l f := by
  simp [verdict]

@[simp] theorem verdict_nil (f : Frame) : verdict [] f = 0 := rfl

/-! Timestamps. -/

/-- `tsValid` as a proposition (R31). -/
theorem tsValid_iff (c : Config) (t : Timestamp) :
    tsValid c t = true ↔ t.sec.toNat ≤ c.secsLimit.toNat ∧ t.nsec.toNat ≤ 999999999 := by
  simp only [tsValid, Bool.and_eq_true, decide_eq_true_eq]
  exact Iff.rfl

/-- The sentinel is invalid under every `SECS_LIMIT` (R32). -/
theorem tsValid_invalidTs (c : Config) : tsValid c invalidTs = false := by
  have : ¬ (invalidTs.nsec.toNat ≤ nsecLimit) := by decide
  simp [tsValid, this]

/-- `min` of an operand and a limit of at most 32 bits (R121). -/
theorem capAt_toNat (v : Word) (n : Nat) (h : n < 4294967296) : (capAt v n).toNat = min v.toNat n := by
  unfold capAt
  split
  · omega
  · simp; omega

end Sys2Proof.Machine
end

