-- ==== Sys2Proof/Laws/Images.lean ====
section
/-! SUPPORT. The wire images: which byte of an image is which field (spec/20_memory.md R66, R67), and
that parsing an image gives back what was serialized. -/

namespace Sys2Proof.Machine

theorem byteOf_append_left (l m : List Byte) (j : Nat) (h : j < l.length) :
    byteOf (l ++ m) j = byteOf l j := by
  rw [byteOf_append, if_pos h]

theorem byteOf_append_right (l m : List Byte) (j : Nat) :
    byteOf (l ++ m) (l.length + j) = byteOf m j := by
  rw [byteOf_append, if_neg (by omega)]
  congr 1
  omega

/-- A byte inside a list is the one `byteOf` reads. -/
theorem getElem?_eq_byteOf (l : List Byte) (k : Nat) (h : k < l.length) :
    l[k]? = some (byteOf l k) := by
  simp [byteOf, List.getD, h]

/-- The four fields that follow the payload. -/
def imageTail (f : Frame) : List Byte :=
  be32 f.marker ++ (be32 f.user ++ (be32 f.ts.sec ++ be32 f.ts.nsec))

/-- The data image, nested from the front. -/
theorem dataImage_eq (c : Config) (f : Frame) :
    dataImage c f = ([c.tagData, f.ctrl, f.dlc.setWidth 8] : List Byte) ++
      (be32 f.id ++ (f.payload ++ imageTail f)) := by
  simp [dataImage, imageTail, List.append_assoc]

/-- Offset 3 on: the identifier. -/
theorem dataImage_drop_id (c : Config) (f : Frame) :
    (dataImage c f).drop 3 = be32 f.id ++ (f.payload ++ imageTail f) := by
  rw [dataImage_eq]
  rfl

/-- Offset 7 on: the payload and what follows it. -/
theorem dataImage_drop_payload (c : Config) (f : Frame) :
    (dataImage c f).drop 7 = f.payload ++ imageTail f := by
  have h : (dataImage c f).drop 7 = ((dataImage c f).drop 3).drop 4 := by rw [List.drop_drop]
  rw [h, dataImage_drop_id]
  rfl

/-- Offset `7 + n` on: the marker and what follows it. -/
theorem dataImage_drop_tail (c : Config) (f : Frame) (j : Nat) :
    (dataImage c f).drop (7 + f.size + j) = (imageTail f).drop j := by
  have h : (dataImage c f).drop (7 + f.size + j) =
      (((dataImage c f).drop 7).drop f.payload.length).drop j := by
    rw [List.drop_drop, List.drop_drop, f.payload_length, Nat.add_assoc]
  rw [h, dataImage_drop_payload, List.drop_left]

/-- A byte of a dropped list is a byte of the list. -/
theorem byteOf_eq_of_drop {l m : List Byte} {k : Nat} (h : l.drop k = m) (j : Nat) :
    byteOf l (k + j) = byteOf m j := by
  rw [← h, byteOf_drop]

/-- The control byte of a frame that meets R44 (2) has no reserved bit. -/
theorem ctrlReserved_eq_zero_iff (c : Byte) : ctrlReserved c = 0 ↔ c.toNat < 16 := by
  revert c; decide

/-- A DLC code widened to a byte and cut back. -/
theorem dlc_roundtrip (d : BitVec 4) :
    (d.setWidth 8).toNat ≤ 15 ∧ (d.setWidth 8).extractLsb' 0 4 = d := by
  revert d; decide

/-- Parsing the image of a frame gives the frame back, its hidden bytes zero (R161, R166). -/
theorem parseData_dataImage (c : Config) (f : Frame) (h : f.Inv) :
    parseData c (dataImage c f) = some { f with data := storeOf f.payload } := by
  have h0 : byteOf (dataImage c f) 0 = c.tagData := rfl
  have h1 : byteOf (dataImage c f) 1 = f.ctrl := rfl
  have h2 : byteOf (dataImage c f) 2 = f.dlc.setWidth 8 := rfl
  obtain ⟨hd, hd'⟩ := dlc_roundtrip f.dlc
  have hs : dataSize (ctrlFmt f.ctrl) f.dlc = f.size := rfl
  have hm := dataImage_drop_tail c f 0
  have hu := dataImage_drop_tail c f 4
  have ht := dataImage_drop_tail c f 8
  have hn := dataImage_drop_tail c f 12
  have e4 : (imageTail f).drop 4 = be32 f.user ++ (be32 f.ts.sec ++ be32 f.ts.nsec) := rfl
  have e8 : (imageTail f).drop 8 = be32 f.ts.sec ++ be32 f.ts.nsec := rfl
  have e12 : (imageTail f).drop 12 = be32 f.ts.nsec ++ [] := rfl
  unfold parseData
  rw [dataImage_length, h0, h1, h2, if_neg (by omega), if_neg (by simp), if_neg (by omega),
    if_neg (by simp [(ctrlReserved_eq_zero_iff f.ctrl).mpr h.2]), if_neg (by omega)]
  simp only [hd', hs]
  rw [if_neg (by omega)]
  rw [show 7 + f.size = 7 + f.size + 0 from rfl, hm,
    show 11 + f.size = 7 + f.size + 4 by omega, hu,
    show 15 + f.size = 7 + f.size + 8 by omega, ht,
    show 19 + f.size = 7 + f.size + 12 by omega, hn, e4, e8, e12,
    dataImage_drop_id, dataImage_drop_payload, List.drop_zero, imageTail]
  have hp : (f.payload ++ imageTail f).take f.size = f.payload := by
    have := List.take_left (l₁ := f.payload) (l₂ := imageTail f)
    rwa [f.payload_length] at this
  rw [imageTail] at hp
  rw [hp]
  simp only [unbe32_be32]
  rw [show f.id &&& idMask (ctrlFmt f.ctrl) = f.id from h.1]

/-- What `parseBody` answers (R167, R168). -/
theorem parseBody_eq (tag : Byte) (len : Nat) (l : List Byte) :
    parseBody tag len l =
      if 1 + len ≤ l.length ∧ byteOf l 0 = tag then some ((l.drop 1).take len) else none := by
  unfold parseBody
  by_cases h0 : l.length < 1
  · rw [if_pos h0, if_neg (by omega)]
  · rw [if_neg h0]
    by_cases h1 : byteOf l 0 = tag
    · rw [if_neg (by simp [h1])]
      by_cases h2 : l.length < 1 + len
      · rw [if_pos h2, if_neg (by omega)]
      · rw [if_neg h2, if_pos ⟨by omega, h1⟩]
    · rw [if_pos h1, if_neg (by simp [h1])]

/-- Parsing the image of a body gives the body back. -/
theorem parseBody_bodyImage (tag : Byte) (l : List Byte) :
    parseBody tag l.length (bodyImage tag l) = some l := by
  rw [parseBody_eq, if_pos ⟨by simp, rfl⟩]
  simp [bodyImage]

end Sys2Proof.Machine
end

