-- ==== Sys2Proof/Laws/Exec.lean ====
section
/-! SUPPORT. What a command can do when it answers a next state, said once for all commands,
    and that
every command answers one under the invariants. -/

namespace Sys2Proof.Machine

/-- The effects of the commands: an illegal frame index, a value failure, an answer that changes no
register, and for each writing command the one change it makes. -/
inductive Effect (s : State) : Instr → State → Prop
  | ill (i) (h : ¬ i.WellFormed s.cfg) :
      Effect s i { s with status := s.status ||| 1, rsp := some ⟨false, 0⟩ }
  | fail (i) (h : i.WellFormed s.cfg) : Effect s i (s.respond false 0)
  | ok (i) (h : i.WellFormed s.cfg) (rv) : Effect s i (s.respond true rv)
  | finit (a imm v) (h : a.toNat < s.cfg.nframe) (rv) (hi : imm.toNat ≤ 3) :
      Effect s (.finit a imm v) ((s.setFrame a (freshFrame (immFmt imm) v)).respond true rv)
  | setdat (a imm v) (h : a.toNat < s.cfg.nframe) (rv) :
      Effect s (.setdat a imm v) ((s.setFrame a ((s.frame a).setByte imm.toNat
          (lowByte v))).respond true rv)
  | setmrk (a v) (h : a.toNat < s.cfg.nframe) (rv) :
      Effect s (.setmrk a v) ((s.setFrame a { s.frame a with marker := v }).respond true rv)
  | setusr (a v) (h : a.toNat < s.cfg.nframe) (rv) :
      Effect s (.setusr a v) ((s.setFrame a { s.frame a with user := v }).respond true rv)
  | setts (a v w ts) (h : a.toNat < s.cfg.nframe) (rv) :
      Effect s (.setts a v w) ((s.setFrame a { s.frame a with ts := ts }).respond true rv)
  | fcopy (a b) (h : a.toNat < s.cfg.nframe) (hb : b.toNat < s.cfg.nframe) (rv) :
      Effect s (.fcopy a b) ((s.setFrame a (s.frame b)).respond true rv)
  | setid (a v) (h : a.toNat < s.cfg.nframe) (rv) :
      Effect s (.setid a v) ((s.setFrame a
          { s.frame a with id := v &&& idMask (s.frame a).fmt }).respond true rv)
  | setdlc (a imm) (h : a.toNat < s.cfg.nframe) (rv) :
      Effect s (.setdlc a imm) ((s.setFrame a { s.frame a with dlc := immDlc imm }).respond true rv)
  | setrtr (a imm) (h : a.toNat < s.cfg.nframe) (rv) :
      Effect s (.setrtr a imm) ((s.setFrame a
          { s.frame a with ctrl := ctrlSetBit (s.frame a).ctrl rtrBit (immFlag imm) }).respond true rv)
  | setovr (a imm) (h : a.toNat < s.cfg.nframe) (rv) :
      Effect s (.setovr a imm) ((s.setFrame a
          { s.frame a with ctrl := ctrlSetBit (s.frame a).ctrl ovrBit (immFlag imm) }).respond true rv)
  | fclr (a) (h : a.toNat < s.cfg.nframe) (rv) :
      Effect s (.fclr a) ((s.setFrame a (freshFrame (s.frame a).fmt 0)).respond true rv)
  | serd (a l) (h : a.toNat < s.cfg.nframe) (hl : l.length ≤ s.cfg.bufsz) :
      Effect s (.serd a)
          { s with
            buf := Memory.writeList s.buf 0 l, blen := BitVec.ofNat 32 l.length,
            rsp := some ⟨true, BitVec.ofNat 32 l.length⟩ }
  | sera (l) (hl : l.length ≤ s.cfg.bufsz) :
      Effect s .sera
          { s with
            buf := Memory.writeList s.buf 0 l, blen := BitVec.ofNat 32 l.length,
            rsp := some ⟨true, BitVec.ofNat 32 l.length⟩ }
  | sere (l) (hl : l.length ≤ s.cfg.bufsz) :
      Effect s .sere
          { s with
            buf := Memory.writeList s.buf 0 l, blen := BitVec.ofNat 32 l.length,
            rsp := some ⟨true, BitVec.ofNat 32 l.length⟩ }
  | desd (a f) (h : a.toNat < s.cfg.nframe) (hf : f.Inv) (rv) :
      Effect s (.desd a) ((s.setFrame a f).respond true rv)
  | desa (l rv) (hl : l.length = s.cfg.apiLen) :
      Effect s .desa { s with apiBody := l, rsp := some ⟨true, rv⟩ }
  | dese (l rv) (hl : l.length = s.cfg.errLen) :
      Effect s .dese { s with errBody := l, rsp := some ⟨true, rv⟩ }
  | awr (x v rv) :
      Effect s (.awr x v)
          { s with apiBody := s.apiBody.set x.toNat (lowByte v), rsp := some ⟨true, rv⟩ }
  | ewr (x v rv) :
      Effect s (.ewr x v)
          { s with errBody := s.errBody.set x.toNat (lowByte v), rsp := some ⟨true, rv⟩ }
  | flapp (a b lo hi) (h1 : a.toNat ≤ 1) (h2 : b.toNat ≤ 4) (h3 : lo.toNat ≤ hi.toNat)
      (h4 : s.flcnt.toNat ≠ s.cfg.nfilt) :
      Effect s (.flapp a b lo hi) ((s.appendRule ⟨a.extractLsb' 0 1, b.extractLsb' 0 3, lo,
          hi⟩).respond true s.flcnt)
  | flrem (x) (h : x.toNat < s.flcnt.toNat) :
      Effect s (.flrem x) ((s.removeRule x.toNat).respond true 0)
  | tsadd (a b ts) (h : a.toNat < s.cfg.nframe) (hb : b.toNat < s.cfg.nframe) (rv) :
      Effect s (.tsadd a b) ((s.setFrame a { s.frame a with ts := ts }).respond true rv)
  | tssub (a b ts) (h : a.toNat < s.cfg.nframe) (hb : b.toNat < s.cfg.nframe) (rv) :
      Effect s (.tssub a b) ((s.setFrame a { s.frame a with ts := ts }).respond true rv)
  | bufwr (x v) (h : x.toNat < s.cfg.bufsz) :
      Effect s (.bufwr x v)
          { s with buf := Memory.write s.buf x.toNat (lowByte v), rsp := some ⟨true, 0⟩ }
  | setblen (x) (h : x.toNat ≤ s.cfg.bufsz) :
      Effect s (.setblen x) { s with blen := x, rsp := some ⟨true, 0⟩ }

/-- A command without frame indices is well-formed. -/
theorem wellFormed_of_none {c : Config} {i : Instr} (h : i.frameIndices = []) : i.WellFormed c :=
    by simp [Instr.WellFormed, h]

/-- A command with one frame index. -/
theorem wellFormed_one {c : Config} {i : Instr} {a} (h : i.frameIndices =
    [a]) : i.WellFormed c ↔ a.toNat < c.nframe := by simp [Instr.WellFormed, h]

/-- A command with two frame indices. -/
theorem wellFormed_two {c : Config} {i : Instr} {a b} (h : i.frameIndices = [a,
    b]) : i.WellFormed c ↔ a.toNat < c.nframe ∧ b.toNat < c.nframe := by simp [Instr.WellFormed, h]

/-- A frame that parses meets the invariants of R44 (R166). -/
theorem parseData_some_inv (c l f) (h : parseData c l = some f) : f.Inv := by
  unfold parseData at h
  split at h; · cases h
  split at h; · cases h
  split at h; · cases h
  split at h; · cases h
  split at h; · cases h
  rename_i h4 _
  simp only at h
  split at h; · cases h
  injection h with h; subst h
  refine ⟨idMask_idem _ _, ?_⟩
  simp only [ne_eq, Decidable.not_not] at h4
  exact (ctrlReserved_eq_zero_iff _).mp h4

/-- A body that parses has the length asked for (R167, R168). -/
theorem parseBody_some_length (t n l f) (h : parseBody t n l = some f) : f.length = n := by
  unfold parseBody at h
  split at h; · cases h
  split at h; · cases h
  split at h; · cases h
  injection h with h; subst h
  simp; omega

/-- Everything a reading command can do. -/
theorem effect_of_readFrame {s t : State} {i : Instr} {a : Byte} {g} (hi : i.frameIndices = [a])
    (h : s.readFrame a g = .next t) : Effect s i t := by
  rcases s.withFrame_next h with ⟨h1, h2⟩ | ⟨h1, h2⟩
  · injection h2 with h2; subst h2; exact .ok _ ((wellFormed_one hi).mpr h1) _
  · subst h2; exact .ill _ (fun e => h1 ((wellFormed_one hi).mp e))

/-- Everything a command with one frame index can do, given what it does with a legal one. -/
theorem effect_of_withFrame {s t : State} {i : Instr} {a : Byte} {k} (hi : i.frameIndices = [a])
    (h : s.withFrame a k = .next t) 
   (hk : a.toNat < s.cfg.nframe → k (s.frame a) = .next t → Effect s i t) : Effect s i t := by
  rcases s.withFrame_next h with ⟨h1, h2⟩ | ⟨h1, h2⟩
  · exact hk h1 h2
  · subst h2; exact .ill _ (fun e => h1 ((wellFormed_one hi).mp e))

/-- The same with two frame indices. -/
theorem effect_of_withFrames {s t : State} {i : Instr} {a b : Byte} {k} (hi : i.frameIndices =
    [a, b]) (h : s.withFrames a b k = .next t) 
   (hk : a.toNat < s.cfg.nframe → b.toNat < s.cfg.nframe → k (s.frame a) (s.frame b) = .next t →
       Effect s i t) : Effect s i t := by
  rcases s.withFrame_next h with ⟨h1, h2⟩ | ⟨h1, h2⟩
  · rcases s.withFrame_next h2 with ⟨h3, h4⟩ | ⟨h3, h4⟩
    · exact hk h1 h3 h4
    · subst h4; exact .ill _ (fun e => h3 ((wellFormed_two hi).mp e).2)
  · subst h2; exact .ill _ (fun e => h1 ((wellFormed_two hi).mp e).1)

/-- Every next state of a command is one of its effects. -/
theorem exec_effect {s t : State} {i : Instr} (h : exec i s = .next t) : Effect s i t := by
  cases i with
  | nop | stat | flcnt | getblen =>
    injection h with h
    subst h
    exact .ok _ (wellFormed_of_none rfl) _
  | dsize a | getmrk a | getusr a | gettss a | gettsn a | tsval a | getfmt a | getid a | getdlc a
  | isext a | isrtr a | isovr a | getctrl a | fltest a => 
    simp only [exec, execDsize, execGetmrk, execGetusr, execGettss, execGettsn, execTsval,
        execGetfmt, execGetid, execGetdlc, execIsext, execIsrtr, execIsovr, execGetctrl,
        execFltest] at h
    exact effect_of_readFrame rfl h
  | finit a imm v =>
    rw [exec, execFinit] at h
    refine effect_of_withFrame rfl h fun h1 h2 => ?_
    split at h2 <;> (injection h2 with h2; subst h2)
    · exact .fail _ ((wellFormed_one rfl).mpr h1)
    · exact .finit _ _ _ h1 _ (by omega)
  | setdat a imm v =>
    rw [exec, execSetdat] at h
    refine effect_of_withFrame rfl h fun h1 h2 => ?_
    split at h2 <;> (injection h2 with h2; subst h2)
    · exact .fail _ ((wellFormed_one rfl).mpr h1)
    · exact .setdat _ _ _ h1 _
  | getdat a imm =>
    rw [exec, execGetdat] at h
    refine effect_of_withFrame rfl h fun h1 h2 => ?_
    split at h2 <;> (injection h2 with h2; subst h2)
    · exact .fail _ ((wellFormed_one rfl).mpr h1)
    · exact .ok _ ((wellFormed_one rfl).mpr h1) _
  | setmrk a v =>
    rw [exec, execSetmrk, State.updateFrame] at h
    exact effect_of_withFrame rfl h fun h1 h2 => by
      injection h2 with h2
      subst h2
      exact .setmrk _ _ h1 _
  | setusr a v =>
    rw [exec, execSetusr, State.updateFrame] at h
    exact effect_of_withFrame rfl h fun h1 h2 => by
      injection h2 with h2
      subst h2
      exact .setusr _ _ h1 _
  | setts a v w =>
    rw [exec, execSetts, State.updateFrame] at h
    exact effect_of_withFrame rfl h fun h1 h2 => by
      injection h2 with h2
      subst h2
      exact .setts _ _ _ _ h1 _
  | setid a v =>
    rw [exec, execSetid, State.updateFrame] at h
    exact effect_of_withFrame rfl h fun h1 h2 => by
      injection h2 with h2
      subst h2
      exact .setid _ _ h1 _
  | fclr a =>
    rw [exec, execFclr, State.updateFrame] at h
    exact effect_of_withFrame rfl h fun h1 h2 => by
      injection h2 with h2
      subst h2
      exact .fclr _ h1 _
  | setdlc a imm =>
    rw [exec, execSetdlc] at h
    refine effect_of_withFrame rfl h fun h1 h2 => ?_
    split at h2 <;> (injection h2 with h2; subst h2)
    · exact .fail _ ((wellFormed_one rfl).mpr h1)
    · exact .setdlc _ _ h1 _
  | setrtr a imm =>
    rw [exec, execSetrtr] at h
    refine effect_of_withFrame rfl h fun h1 h2 => ?_
    split at h2 <;> (injection h2 with h2; subst h2)
    · exact .fail _ ((wellFormed_one rfl).mpr h1)
    · exact .setrtr _ _ h1 _
  | setovr a imm =>
    rw [exec, execSetovr] at h
    refine effect_of_withFrame rfl h fun h1 h2 => ?_
    split at h2 <;> (injection h2 with h2; subst h2)
    · exact .fail _ ((wellFormed_one rfl).mpr h1)
    · exact .setovr _ _ h1 _
  | fcopy a b =>
    rw [exec, execFcopy] at h
    exact effect_of_withFrames rfl h fun h1 h2 h3 => by
      injection h3 with h3
      subst h3
      exact .fcopy _ _ h1 h2 _
  | feq a b =>
    rw [exec, execFeq] at h
    exact effect_of_withFrames rfl h fun h1 h2 h3 => by
      injection h3 with h3
      subst h3
      exact .ok _ ((wellFormed_two rfl).mpr ⟨h1, h2⟩) _
  | tsadd a b =>
    rw [exec, execTsadd] at h
    exact effect_of_withFrames rfl h fun h1 h2 h3 => by
      injection h3 with h3
      subst h3
      exact .tsadd _ _ _ h1 h2 _
  | tssub a b =>
    rw [exec, execTssub] at h
    exact effect_of_withFrames rfl h fun h1 h2 h3 => by
      injection h3 with h3
      subst h3
      exact .tssub _ _ _ h1 h2 _
  | serd a =>
    rw [exec, execSerd] at h
    refine effect_of_withFrame rfl h fun h1 h2 => ?_
    obtain ⟨h3, h4⟩ := s.storeImage_next h2
    subst h4; exact .serd _ _ h1 h3
  | sera => obtain ⟨h3, h4⟩ := s.storeImage_next h; subst h4; exact .sera _ h3
  | sere => obtain ⟨h3, h4⟩ := s.storeImage_next h; subst h4; exact .sere _ h3
  | desd a =>
    rw [exec, execDesd] at h
    refine effect_of_withFrame rfl h fun h1 h2 => ?_
    have h3 := s.validBytes_next h2
    split at h3 <;> (injection h3 with h3; subst h3)
    · exact .fail _ ((wellFormed_one rfl).mpr h1)
    · exact .desd _ _ h1 (parseData_some_inv _ _ _ ‹_›) _
  | desa =>
    rw [exec, execDesa] at h
    have h3 := s.validBytes_next h
    split at h3 <;> (injection h3 with h3; subst h3)
    · exact .fail _ (wellFormed_of_none rfl)
    · exact .desa _ _ (parseBody_some_length _ _ _ _ ‹_›)
  | dese =>
    rw [exec, execDese] at h
    have h3 := s.validBytes_next h
    split at h3 <;> (injection h3 with h3; subst h3)
    · exact .fail _ (wellFormed_of_none rfl)
    · exact .dese _ _ (parseBody_some_length _ _ _ _ ‹_›)
  | bkind =>
    rw [exec, execBkind] at h
    have h3 := s.validBytes_next h
    split at h3
    · injection h3 with h3; subst h3; exact .fail _ (wellFormed_of_none rfl)
    split at h3
    · injection h3 with h3; subst h3; exact .ok _ (wellFormed_of_none rfl) _
    split at h3
    · injection h3 with h3; subst h3; exact .ok _ (wellFormed_of_none rfl) _
    split at h3 <;> (injection h3 with h3; subst h3)
    · exact .ok _ (wellFormed_of_none rfl) _
    · exact .fail _ (wellFormed_of_none rfl)
  | awr x v =>
    rw [exec, execAwr] at h
    split at h <;> (injection h with h; subst h)
    · exact .fail _ (wellFormed_of_none rfl)
    · exact .awr _ _ _
  | ard x =>
    rw [exec, execArd] at h
    split at h <;> (injection h with h; subst h)
    · exact .fail _ (wellFormed_of_none rfl)
    · exact .ok _ (wellFormed_of_none rfl) _
  | ewr x v =>
    rw [exec, execEwr] at h
    split at h <;> (injection h with h; subst h)
    · exact .fail _ (wellFormed_of_none rfl)
    · exact .ewr _ _ _
  | erd x =>
    rw [exec, execErd] at h
    split at h <;> (injection h with h; subst h)
    · exact .fail _ (wellFormed_of_none rfl)
    · exact .ok _ (wellFormed_of_none rfl) _
  | flapp a b lo hi =>
    rw [exec, execFlapp] at h
    split at h
    · injection h with h; subst h; exact .fail _ (wellFormed_of_none rfl)
    split at h
    · injection h with h; subst h; exact .fail _ (wellFormed_of_none rfl)
    split at h
    · injection h with h; subst h; exact .fail _ (wellFormed_of_none rfl)
    split at h <;> (injection h with h; subst h)
    · exact .fail _ (wellFormed_of_none rfl)
    · exact .flapp _ _ _ _ (by omega) (by omega) (by omega) ‹_›
  | flrem x =>
    rw [exec, execFlrem] at h
    split at h <;> (injection h with h; subst h)
    · exact .fail _ (wellFormed_of_none rfl)
    · exact .flrem _ (by omega)
  | bufwr x v =>
    rw [exec, execBufwr] at h
    split at h
    · injection h with h; subst h; exact .fail _ (wellFormed_of_none rfl)
    rw [State.memWrite_of_le _ _ _ _ (by simp; omega)] at h
    injection h with h; subst h; exact .bufwr _ _ (by omega)
  | bufrd x =>
    rw [exec, execBufrd] at h
    split at h <;> (injection h with h; subst h)
    · exact .fail _ (wellFormed_of_none rfl)
    · exact .ok _ (wellFormed_of_none rfl) _
  | setblen x =>
    rw [exec, execSetblen] at h
    split at h <;> (injection h with h; subst h)
    · exact .fail _ (wellFormed_of_none rfl)
    · exact .setblen _ (by omega)

/-- A command with one frame index answers if its continuation does. -/
theorem State.withFrame_total {s : State} {a : Byte} {k} (h : ∀ f, ∃ t, k f =
    Host.Outcome.next t) : ∃ t, s.withFrame a k = .next t := by
  unfold State.withFrame
  split
  · exact h _
  · exact ⟨_, rfl⟩

/-- A command on the valid bytes answers if its continuation does. -/
theorem State.validBytes_total {s : State} {k} (hI : s.Inv) (h : ∀ f, ∃ t, k f =
    Host.Outcome.next t) : ∃ t, s.validBytes k = .next t := by
  rw [s.validBytes_of_le k hI.valid]; exact h _

/-- Under the invariants every command answers a next state. -/
theorem exec_total (i s) (hI : State.Inv s) : ∃ t, exec i s = .next t := by
  obtain ⟨_, _, hb, ha, he, _⟩ := hI.legal
  cases i <;> simp only [exec, execNop, execStat, execFinit, execDsize, execSetdat, execGetdat,
      execSetmrk, execGetmrk, execSetusr, execGetusr, execSetts, execGettss, execGettsn,
      execTsval, execFcopy, execFeq, execGetfmt, execSetid, execGetid, execSetdlc,
      execGetdlc, execIsext, execIsrtr, execIsovr, execSetrtr, execSetovr, execFclr,
      execGetctrl, execDesd, execDesa, execDese, execBkind, execAwr, execArd,
      execEwr, execErd, execFlapp, execFlrem, execFlcnt, execFltest, execTsadd,
      execTssub, execBufrd, execSetblen, execGetblen, State.readFrame,
      State.updateFrame, State.withFrames, State.putTs]
  case serd a =>
    refine State.withFrame_total fun f => ⟨_, s.storeImage_of_le _ ?_⟩
    have := f.size_le
    rw [dataImage_length]
    omega
  case sera => exact ⟨_, s.storeImage_of_le _ (by rw [bodyImage_length, hI.api]; omega)⟩
  case sere => exact ⟨_, s.storeImage_of_le _ (by rw [bodyImage_length, hI.err]; omega)⟩
  case bufwr x v =>
    unfold execBufwr
    split
    · exact ⟨_, rfl⟩
    · rw [State.memWrite_of_le _ _ _ _ (by simp; omega)]
      exact ⟨_, rfl⟩
  case desd =>
    exact State.withFrame_total fun f => State.validBytes_total hI fun l => by
      split <;> exact ⟨_, rfl⟩
  case desa => exact State.validBytes_total hI fun l => by split <;> exact ⟨_, rfl⟩
  case dese => exact State.validBytes_total hI fun l => by split <;> exact ⟨_, rfl⟩
  case bkind =>
    refine State.validBytes_total hI fun l => ?_
    repeat' split
    all_goals exact ⟨_, rfl⟩
  case flapp =>
    repeat' split
    all_goals exact ⟨_, rfl⟩
  case fcopy | feq | tsadd | tssub =>
    exact State.withFrame_total fun f => State.withFrame_total fun g => ⟨_, rfl⟩
  all_goals first
    | exact ⟨_, rfl⟩
    | (split <;> exact ⟨_, rfl⟩)
    | exact State.withFrame_total fun f => ⟨_, rfl⟩
    | exact State.withFrame_total fun f => (by split <;> exact ⟨_, rfl⟩)

/-- SERD under the invariants, for a legal index. -/
theorem exec_serd_of_inv {s : State} {a : Byte} (hI : s.Inv) (ha : a.toNat < s.cfg.nframe) :
    exec (.serd a) s = .next
        { s with
          buf := Memory.writeList s.buf 0 (dataImage s.cfg (s.frame a)),
          blen := BitVec.ofNat 32 (dataImage s.cfg (s.frame a)).length,
          rsp := some ⟨true, BitVec.ofNat 32 (dataImage s.cfg (s.frame a)).length⟩ } := by
  have hsz := hI.legal.2.2.1
  have hle := (s.frame a).size_le
  have hl : (dataImage s.cfg (s.frame a)).length ≤ s.cfg.bufsz := by rw [dataImage_length]; omega
  rw [exec, execSerd, s.withFrame_of_lt a _ ha]; exact s.storeImage_of_le _ hl

/-- DESD of bytes that parse. -/
theorem exec_desd_of_some {t : State} {b : Byte} {f : Frame} (h : b.toNat < t.cfg.nframe)
    (hv : t.blen.toNat ≤ t.cfg.bufsz)
    (hp : parseData t.cfg (Memory.readList t.buf 0 t.blen.toNat) = some f) :
    exec (.desd b) t = .next ((t.setFrame b f).respond true (BitVec.ofNat 32 (23 + f.size))) := by
  rw [exec, execDesd, t.withFrame_of_lt b _ h, t.validBytes_of_le _ hv, hp]; rfl

/-- DESA of bytes that parse. -/
theorem exec_desa_of_some {t : State} {l : List Byte} (hv : t.blen.toNat ≤ t.cfg.bufsz)
    (hp : parseBody t.cfg.tagApi t.cfg.apiLen (Memory.readList t.buf 0 t.blen.toNat) = some l) :
    exec .desa t = .next (({ t with apiBody := l } : State).respond true (BitVec.ofNat 32
        (1 + t.cfg.apiLen))) := by
  rw [exec, execDesa, t.validBytes_of_le _ hv, hp]; rfl

/-- DESE of bytes that parse. -/
theorem exec_dese_of_some {t : State} {l : List Byte} (hv : t.blen.toNat ≤ t.cfg.bufsz)
    (hp : parseBody t.cfg.tagError t.cfg.errLen (Memory.readList t.buf 0 t.blen.toNat) = some l) :
    exec .dese t = .next (({ t with errBody := l } : State).respond true (BitVec.ofNat 32
        (1 + t.cfg.errLen))) := by
  rw [exec, execDese, t.validBytes_of_le _ hv, hp]; rfl

/-- The size an image resolves to, in the terms of R112. -/
theorem dataSize_of_bytes (c d : Byte) (h : d.toNat ≤ 15) : dataSize (ctrlFmt c)
    (d.extractLsb' 0 4) =
   if c.getLsbD 1 then [0, 1, 2, 3, 4, 5, 6, 7, 8, 12, 16, 20, 24, 32, 48,
       64].getD d.toNat 0 else min d.toNat 8 := by
  have e1 : (ctrlFmt c).getLsbD 1 = c.getLsbD 1 := by simp [ctrlFmt]
  have e2 : (d.extractLsb' 0 4).toNat = d.toNat := by simp; omega
  rw [dataSize, e1, e2, fdTable]

/-- A 32-bit field of the valid bytes (R62). -/
theorem unbe32_readList (m : List Host.Cell) (L p : Nat) (h : p + 4 ≤ L) : unbe32
    ((Memory.readList m 0 L).drop p) =
   Memory.read m p ++ Memory.read m (p+1) ++ Memory.read m (p+2) ++ Memory.read m (p+3) := by
  simp only [unbe32, byteOf_drop]
  rw [Memory.byteOf_readList _ _ _ _ (by omega), Memory.byteOf_readList _ _ _ _ (by omega),
      Memory.byteOf_readList _ _ _ _ (by omega), Memory.byteOf_readList _ _ _ _ (by omega)]
  simp

end Sys2Proof.Machine
end

