-- ==== Sys2Proof/Laws/PerInstr.lean ====
section
/-! SUPPORT. One lemma per command of the family `EncodeSelectsRow`: the command word that the encoder
writes selects a row of the opcode map (spec/30_encoding.md R84, R87), at every operand value. -/

namespace Sys2Proof.Laws.EncodeSelectsRow

/-- The encoding of the command selects a row of R87's map. -/
def Statement (i : Instr) : Prop := ∃ r ∈ opcodeMap, (encode i).cw &&& r.2 = r.1

/-- A word given by its fields selects the row whose match and mask are given by theirs. -/
theorem of_fields {i : Instr} {op a b c : Byte} (ma mb mc : Byte)
    (hi : (encode i).cw = commandWord op a b c)
    (hr : (commandWord op 0 0 0, commandWord 0xFF ma mb mc) ∈ opcodeMap)
    (ha : a &&& ma = 0) (hb : b &&& mb = 0) (hc : c &&& mc = 0) : Statement i :=
  ⟨_, hr, by rw [hi]; exact (commandWord_and _ _ _ _ _ _ _ _).trans (by rw [ha, hb, hc, (by decide : ∀ x : Byte, x &&& 0xFF = x)])⟩

theorem nop : Statement (.nop) :=
  of_fields 0xFF 0xFF 0xFF rfl (by decide) (by simp) (by simp) (by simp)

theorem stat : Statement (.stat) :=
  of_fields 0xFF 0xFF 0xFF rfl (by decide) (by simp) (by simp) (by simp)

theorem finit (a imm : Byte) (opa : Word) : Statement (.finit a imm opa) :=
  of_fields 0x00 0xFF 0x00 rfl (by decide) (by simp) (by simp) (by simp)

theorem dsize (a : Byte) : Statement (.dsize a) :=
  of_fields 0x00 0xFF 0xFF rfl (by decide) (by simp) (by simp) (by simp)

theorem setdat (a imm : Byte) (opa : Word) : Statement (.setdat a imm opa) :=
  of_fields 0x00 0xFF 0x00 rfl (by decide) (by simp) (by simp) (by simp)

theorem getdat (a imm : Byte) : Statement (.getdat a imm) :=
  of_fields 0x00 0xFF 0x00 rfl (by decide) (by simp) (by simp) (by simp)

theorem setmrk (a : Byte) (opa : Word) : Statement (.setmrk a opa) :=
  of_fields 0x00 0xFF 0xFF rfl (by decide) (by simp) (by simp) (by simp)

theorem getmrk (a : Byte) : Statement (.getmrk a) :=
  of_fields 0x00 0xFF 0xFF rfl (by decide) (by simp) (by simp) (by simp)

theorem setusr (a : Byte) (opa : Word) : Statement (.setusr a opa) :=
  of_fields 0x00 0xFF 0xFF rfl (by decide) (by simp) (by simp) (by simp)

theorem getusr (a : Byte) : Statement (.getusr a) :=
  of_fields 0x00 0xFF 0xFF rfl (by decide) (by simp) (by simp) (by simp)

theorem setts (a : Byte) (opa opb : Word) : Statement (.setts a opa opb) :=
  of_fields 0x00 0xFF 0xFF rfl (by decide) (by simp) (by simp) (by simp)

theorem gettss (a : Byte) : Statement (.gettss a) :=
  of_fields 0x00 0xFF 0xFF rfl (by decide) (by simp) (by simp) (by simp)

theorem gettsn (a : Byte) : Statement (.gettsn a) :=
  of_fields 0x00 0xFF 0xFF rfl (by decide) (by simp) (by simp) (by simp)

theorem tsval (a : Byte) : Statement (.tsval a) :=
  of_fields 0x00 0xFF 0xFF rfl (by decide) (by simp) (by simp) (by simp)

theorem fcopy (a b : Byte) : Statement (.fcopy a b) :=
  of_fields 0x00 0x00 0xFF rfl (by decide) (by simp) (by simp) (by simp)

theorem feq (a b : Byte) : Statement (.feq a b) :=
  of_fields 0x00 0x00 0xFF rfl (by decide) (by simp) (by simp) (by simp)

theorem getfmt (a : Byte) : Statement (.getfmt a) :=
  of_fields 0x00 0xFF 0xFF rfl (by decide) (by simp) (by simp) (by simp)

theorem setid (a : Byte) (opa : Word) : Statement (.setid a opa) :=
  of_fields 0x00 0xFF 0xFF rfl (by decide) (by simp) (by simp) (by simp)

theorem getid (a : Byte) : Statement (.getid a) :=
  of_fields 0x00 0xFF 0xFF rfl (by decide) (by simp) (by simp) (by simp)

theorem setdlc (a imm : Byte) : Statement (.setdlc a imm) :=
  of_fields 0x00 0xFF 0x00 rfl (by decide) (by simp) (by simp) (by simp)

theorem getdlc (a : Byte) : Statement (.getdlc a) :=
  of_fields 0x00 0xFF 0xFF rfl (by decide) (by simp) (by simp) (by simp)

theorem isext (a : Byte) : Statement (.isext a) :=
  of_fields 0x00 0xFF 0xFF rfl (by decide) (by simp) (by simp) (by simp)

theorem isrtr (a : Byte) : Statement (.isrtr a) :=
  of_fields 0x00 0xFF 0xFF rfl (by decide) (by simp) (by simp) (by simp)

theorem isovr (a : Byte) : Statement (.isovr a) :=
  of_fields 0x00 0xFF 0xFF rfl (by decide) (by simp) (by simp) (by simp)

theorem setrtr (a imm : Byte) : Statement (.setrtr a imm) :=
  of_fields 0x00 0xFF 0x00 rfl (by decide) (by simp) (by simp) (by simp)

theorem setovr (a imm : Byte) : Statement (.setovr a imm) :=
  of_fields 0x00 0xFF 0x00 rfl (by decide) (by simp) (by simp) (by simp)

theorem fclr (a : Byte) : Statement (.fclr a) :=
  of_fields 0x00 0xFF 0xFF rfl (by decide) (by simp) (by simp) (by simp)

theorem getctrl (a : Byte) : Statement (.getctrl a) :=
  of_fields 0x00 0xFF 0xFF rfl (by decide) (by simp) (by simp) (by simp)

theorem serd (a : Byte) : Statement (.serd a) :=
  of_fields 0x00 0xFF 0xFF rfl (by decide) (by simp) (by simp) (by simp)

theorem sera : Statement (.sera) :=
  of_fields 0xFF 0xFF 0xFF rfl (by decide) (by simp) (by simp) (by simp)

theorem sere : Statement (.sere) :=
  of_fields 0xFF 0xFF 0xFF rfl (by decide) (by simp) (by simp) (by simp)

theorem desd (a : Byte) : Statement (.desd a) :=
  of_fields 0x00 0xFF 0xFF rfl (by decide) (by simp) (by simp) (by simp)

theorem desa : Statement (.desa) :=
  of_fields 0xFF 0xFF 0xFF rfl (by decide) (by simp) (by simp) (by simp)

theorem dese : Statement (.dese) :=
  of_fields 0xFF 0xFF 0xFF rfl (by decide) (by simp) (by simp) (by simp)

theorem bkind : Statement (.bkind) :=
  of_fields 0xFF 0xFF 0xFF rfl (by decide) (by simp) (by simp) (by simp)

theorem awr (opa opb : Word) : Statement (.awr opa opb) :=
  of_fields 0xFF 0xFF 0xFF rfl (by decide) (by simp) (by simp) (by simp)

theorem ard (opa : Word) : Statement (.ard opa) :=
  of_fields 0xFF 0xFF 0xFF rfl (by decide) (by simp) (by simp) (by simp)

theorem ewr (opa opb : Word) : Statement (.ewr opa opb) :=
  of_fields 0xFF 0xFF 0xFF rfl (by decide) (by simp) (by simp) (by simp)

theorem erd (opa : Word) : Statement (.erd opa) :=
  of_fields 0xFF 0xFF 0xFF rfl (by decide) (by simp) (by simp) (by simp)

theorem flapp (a b : Byte) (opa opb : Word) : Statement (.flapp a b opa opb) :=
  of_fields 0x00 0x00 0xFF rfl (by decide) (by simp) (by simp) (by simp)

theorem flrem (opa : Word) : Statement (.flrem opa) :=
  of_fields 0xFF 0xFF 0xFF rfl (by decide) (by simp) (by simp) (by simp)

theorem flcnt : Statement (.flcnt) :=
  of_fields 0xFF 0xFF 0xFF rfl (by decide) (by simp) (by simp) (by simp)

theorem fltest (a : Byte) : Statement (.fltest a) :=
  of_fields 0x00 0xFF 0xFF rfl (by decide) (by simp) (by simp) (by simp)

theorem tsadd (a b : Byte) : Statement (.tsadd a b) :=
  of_fields 0x00 0x00 0xFF rfl (by decide) (by simp) (by simp) (by simp)

theorem tssub (a b : Byte) : Statement (.tssub a b) :=
  of_fields 0x00 0x00 0xFF rfl (by decide) (by simp) (by simp) (by simp)

theorem bufwr (opa opb : Word) : Statement (.bufwr opa opb) :=
  of_fields 0xFF 0xFF 0xFF rfl (by decide) (by simp) (by simp) (by simp)

theorem bufrd (opa : Word) : Statement (.bufrd opa) :=
  of_fields 0xFF 0xFF 0xFF rfl (by decide) (by simp) (by simp) (by simp)

theorem setblen (opa : Word) : Statement (.setblen opa) :=
  of_fields 0xFF 0xFF 0xFF rfl (by decide) (by simp) (by simp) (by simp)

theorem getblen : Statement (.getblen) :=
  of_fields 0xFF 0xFF 0xFF rfl (by decide) (by simp) (by simp) (by simp)

end Sys2Proof.Laws.EncodeSelectsRow
end

