-- ==== Sys2Proof/Laws/Time.lean ====
section
/-! SUPPORT. What the sum and the difference of two timestamps are, in nanoseconds
    (spec/44_timestamp.md). -/

namespace Sys2Proof.Machine

/-- Everything `tsAdd` can answer: the exact sum when it is representable, else `INVALID_TS`
    (R212). -/
theorem tsAdd_spec (c : Config) (x y : Timestamp) :
   let valid (z : Timestamp) : Prop := z.sec.toNat ≤ c.secsLimit.toNat ∧ z.nsec.toNat ≤ 999999999
   ((valid x ∧ valid y ∧ (x.nanos + y.nanos) / 1000000000 ≤ c.secsLimit.toNat) →
      valid (tsAdd c x y) ∧ (tsAdd c x y).nanos = x.nanos + y.nanos ∧ tsAdd c x y ≠ invalidTs) ∧
   (¬ (valid x ∧ valid y ∧ (x.nanos + y.nanos) / 1000000000 ≤ c.secsLimit.toNat) → tsAdd c x y =
       invalidTs) := by
  intro valid
  have hv : ∀ z, tsValid c z = true ↔ valid z := tsValid_iff c
  have hsl := c.secsLimit.isLt
  constructor
  · rintro ⟨h1, h2, h3⟩
    unfold tsAdd
    rw [if_neg (by simp [(hv x).mpr h1, (hv y).mpr h2])]
    simp only [valid, Timestamp.nanos] at *
    split
    · rw [if_neg (by omega)]
      refine ⟨⟨by simp; omega, by simp; omega⟩, by simp; omega, ?_⟩
      intro h; have := congrArg (fun t => t.nsec.toNat) h; simp [invalidTs] at this; omega
    · rw [if_neg (by omega)]
      refine ⟨⟨by simp; omega, by simp; omega⟩, by simp; omega, ?_⟩
      intro h; have := congrArg (fun t => t.nsec.toNat) h; simp [invalidTs] at this; omega
  · intro h
    unfold tsAdd
    by_cases h1 : valid x
    · by_cases h2 : valid y
      · rw [if_neg (by simp [(hv x).mpr h1, (hv y).mpr h2])]
        have h3 : ¬ (x.nanos + y.nanos) / 1000000000 ≤ c.secsLimit.toNat := fun e => h ⟨h1, h2, e⟩
        simp only [valid, Timestamp.nanos] at *
        split <;> rw [if_pos (by omega)]
      · rw [if_pos]; have := mt (hv y).mp h2; rw [Bool.not_eq_true] at this; simp [this]
    · rw [if_pos]; have := mt (hv x).mp h1; rw [Bool.not_eq_true] at this; simp [this]

/-- Everything `tsSub` can answer: the exact difference when it is not negative,
    else `INVALID_TS` (R213). -/
theorem tsSub_spec (c : Config) (x y : Timestamp) :
   let valid (z : Timestamp) : Prop := z.sec.toNat ≤ c.secsLimit.toNat ∧ z.nsec.toNat ≤ 999999999
   ((valid x ∧ valid y ∧ y.nanos ≤ x.nanos) →
      valid (tsSub c x y) ∧ (tsSub c x y).nanos + y.nanos = x.nanos ∧ tsSub c x y ≠ invalidTs) ∧
   (¬ (valid x ∧ valid y ∧ y.nanos ≤ x.nanos) → tsSub c x y = invalidTs) := by
  intro valid
  have hv : ∀ z, tsValid c z = true ↔ valid z := tsValid_iff c
  have hsl := c.secsLimit.isLt
  have b1 := x.sec.isLt
  constructor
  · rintro ⟨h1, h2, h3⟩
    unfold tsSub
    rw [if_neg (by simp [(hv x).mpr h1, (hv y).mpr h2])]
    simp only [valid, Timestamp.nanos] at *
    rw [if_neg (by omega)]
    split
    · refine ⟨⟨by simp; omega, by simp; omega⟩, by simp; omega, ?_⟩
      intro h; have := congrArg (fun t => t.nsec.toNat) h; simp [invalidTs] at this; omega
    · refine ⟨⟨by simp; omega, by simp; omega⟩, by simp; omega, ?_⟩
      intro h; have := congrArg (fun t => t.nsec.toNat) h; simp [invalidTs] at this; omega
  · intro h
    unfold tsSub
    by_cases h1 : valid x
    · by_cases h2 : valid y
      · rw [if_neg (by simp [(hv x).mpr h1, (hv y).mpr h2])]
        have h3 : ¬ y.nanos ≤ x.nanos := fun e => h ⟨h1, h2, e⟩
        simp only [valid, Timestamp.nanos] at *
        rw [if_pos (by omega)]
      · rw [if_pos]; have := mt (hv y).mp h2; rw [Bool.not_eq_true] at this; simp [this]
    · rw [if_pos]; have := mt (hv x).mp h1; rw [Bool.not_eq_true] at this; simp [this]

/-- The sum does not depend on the order of the operands. -/
theorem tsAdd_comm (c : Config) (x y : Timestamp) : tsAdd c x y = tsAdd c y x := by
  unfold tsAdd
  rw [Bool.or_comm, Nat.add_comm x.nsec.toNat, Nat.add_comm x.sec.toNat]

/-- Two timestamps with normal nanoseconds that stand for the same time are equal. -/
theorem Timestamp.eq_of_nanos (x y : Timestamp) (h : x.nanos = y.nanos)
    (hx : x.nsec.toNat ≤ 999999999)
    (hy : y.nsec.toNat ≤ 999999999) : x = y := by
  cases x
  cases y
  simp only [Timestamp.nanos] at *
  congr <;> apply BitVec.eq_of_toNat_eq <;> omega

end Sys2Proof.Machine
end

