-- ==== Sys2Proof/Laws/Verdict.lean ====
section
/-! SUPPORT. The verdict of the rule list: the last rule that hits decides
    (spec/43_filter.md R195, R196). -/

namespace Sys2Proof.Machine

/-- One more rule in the list. -/
theorem verdict_take_succ (l : List Rule) (n : Nat) (r : Rule) (h : l[n]? = some r) (f : Frame) :
   verdict (l.take (n+1)) f = if r.hits f then r.policy else verdict (l.take n) f := by
  obtain ⟨h1, rfl⟩ := List.getElem?_eq_some_iff.mp h
  rw [List.take_succ_eq_append_getElem h1, verdict_append]

/-- The hit with the greatest index decides. -/
theorem verdict_last (l : List Rule) (f : Frame) (k : Nat) (r : Rule) (hr : l[k]? = some r)
    (hh : r.hits f = true) :
   ∀ n, k < n → n ≤ l.length → (∀ j q, k < j → j < n → l[j]? = some q → q.hits f = false) →
       verdict (l.take n) f = r.policy := by
  intro n
  induction n with
  | zero => intro h; omega
  | succ n ih =>
    intro hk hl hj
    by_cases h : k = n
    · subst h; rw [verdict_take_succ _ _ _ hr, hh]; rfl
    · obtain ⟨q, hq⟩ : ∃ q, l[n]? = some q := ⟨_, List.getElem?_eq_getElem (by omega)⟩
      rw [verdict_take_succ _ _ _ hq, hj n q (by omega) (by omega) hq]
      exact ih (by omega) (by omega) fun j q h1 h2 => hj j q h1 (by omega)

/-- Without a hit the verdict is 0. -/
theorem verdict_none (l : List Rule) (f : Frame) : ∀ n, n ≤ l.length → (∀ j q, j < n → l[j]? =
    some q → q.hits f = false) → verdict (l.take n) f = 0 := by
  intro n
  induction n with
  | zero => intros; simp
  | succ n ih =>
    intro hl hj
    obtain ⟨q, hq⟩ : ∃ q, l[n]? = some q := ⟨_, List.getElem?_eq_getElem (by omega)⟩
    rw [verdict_take_succ _ _ _ hq, hj n q (by omega) hq]
    exact ih (by omega) fun j q h2 => hj j q (by omega)

end Sys2Proof.Machine
end

