-- ==== Sys2Proof/Tests/Slice0.lean ====
section
/-! SUPPORT. Small tests: the well-formedness check, one written-out word per command, one or two steps
per command on vectors of spec/95_test_vectors.md (the vector or program beat is named in each
comment), and a witness for every statement with hypotheses. -/

namespace Sys2Proof.Tests

open Sys2Proof.Machine

/-! Helpers. -/

/-- The state of a next outcome. -/
def nextOf (r : Result) : State :=
  match r with
  | .next t => t
  | _ => State.reset

/-- The response a beat gets in a state. -/
def answer (s : State) (b : Beat) : Option Response := (nextOf (step (s.offer b))).rsp

/-- The state after a beat. -/
def after (s : State) (b : Beat) : State := nextOf (step (s.offer b))

/-- Register 0 after a beat. -/
def frame0 (s : State) (b : Beat) : Frame := (after s b).frame 0

/-- Reset, but for register 0. -/
def with0 (f : Frame) : State := { State.reset with frames := [f, Frame.zero, Frame.zero, Frame.zero] }

/-- Reset, but for registers 0 and 1. -/
def with01 (f g : Frame) : State := { State.reset with frames := [f, g, Frame.zero, Frame.zero] }

/-- Reset, but for the timestamps of registers 0 and 1. -/
def times (a b c d : Word) : State :=
  with01 { Frame.zero with ts := ⟨a, b⟩ } { Frame.zero with ts := ⟨c, d⟩ }

/-- A cleared frame of a format. -/
def ofFmt (f : BitVec 2) : Frame := { Frame.zero with ctrl := ctrlOfFmt f }

/-- Reset, but for the bytes of the buffer from offset 0 on and `BLEN`. -/
def withBytes (l : List Byte) : State :=
  { State.reset with buf := Memory.writeList [] 0 l, blen := BitVec.ofNat 32 l.length }

/-- Reset, but for the rule list. -/
def withRules (l : List Rule) : State :=
  { State.reset with
    rules := l ++ List.replicate (16 - l.length) Rule.zero, flcnt := BitVec.ofNat 32 l.length }

/-- The frame of M8 after beat 6: EXT_FD, RTR, OVR, one payload byte written. -/
def m8 : Frame := (Frame.mk 0x0F 0x1ABCDEF0 3 (Vector.replicate 64 0) 0 0 ⟨0, 0⟩).setByte 2 0x5A

/-- The classic frame of S2. -/
def s2 : Frame := Frame.mk 0x01 0x1FFFFFFF 9 (storeOf [1, 2, 3, 4, 5, 6, 7, 8]) 1 2 ⟨3, 4⟩

/-- The image of S16. -/
def s16 : List Byte :=
  [0x00, 0x00, 0x09, 0xFF, 0xFF, 0xFF, 0xFF, 1, 2, 3, 4, 5, 6, 7, 8, 0, 0, 0, 1, 0, 0, 0, 2] ++
  [0xFF, 0xFF, 0xFF, 0xFF, 0xFF, 0xFF, 0xFF, 0xFF]

/-! Well-formedness (R86): the last register of `NFRAME = 4` is accepted, the next index refused. -/

theorem test_wellFormed_accepts_last : (Instr.dsize 3).WellFormed Config.vectors := by decide

theorem test_wellFormed_refuses_index : ¬ (Instr.dsize 4).WellFormed Config.vectors := by decide

theorem test_wellFormed_refuses_second_index : ¬ (Instr.fcopy 0 4).WellFormed Config.vectors := by decide

theorem test_wellFormed_rule_format_is_no_index :
    (Instr.flapp 1 4 0x200 0x240).WellFormed Config.vectors := by decide

/-! Decoding: one word per command, written out from R82 and R87 (most are the beats of spec/95). -/

theorem test_decode_system : 
    decode ⟨0x00000000, 0, 0⟩ = .ok .nop ∧
    decode ⟨0x01000000, 0, 0⟩ = .ok .stat ∧
    decode ⟨0x60000000, 1, 0xDE⟩ = .ok (.bufwr 1 0xDE) ∧
    decode ⟨0x61000000, 4, 0⟩ = .ok (.bufrd 4) ∧
    decode ⟨0x62000000, 5, 0⟩ = .ok (.setblen 5) ∧
    decode ⟨0x63000000, 0, 0⟩ = .ok .getblen := by decide

theorem test_decode_frame : 
    decode ⟨0x10010003, 0x12345678, 0⟩ = .ok (.finit 1 3 0x12345678) ∧
    decode ⟨0x11020000, 0, 0⟩ = .ok (.dsize 2) ∧
    decode ⟨0x12010007, 0x77, 0⟩ = .ok (.setdat 1 7 0x77) ∧
    decode ⟨0x13030007, 0, 0⟩ = .ok (.getdat 3 7) ∧
    decode ⟨0x14020000, 0xCAFEF00D, 0⟩ = .ok (.setmrk 2 0xCAFEF00D) ∧
    decode ⟨0x15020000, 0, 0⟩ = .ok (.getmrk 2) ∧
    decode ⟨0x16010000, 0x42, 0⟩ = .ok (.setusr 1 0x42) ∧
    decode ⟨0x17030000, 0, 0⟩ = .ok (.getusr 3) := by decide

theorem test_decode_frame_rest : 
    decode ⟨0x18000000, 0x11, 0x149CB114⟩ = .ok (.setts 0 17 345813268) ∧
    decode ⟨0x19030000, 0, 0⟩ = .ok (.gettss 3) ∧
    decode ⟨0x1A020000, 0, 0⟩ = .ok (.gettsn 2) ∧
    decode ⟨0x1B010000, 0, 0⟩ = .ok (.tsval 1) ∧
    decode ⟨0x1C020000, 0, 0⟩ = .ok (.fcopy 2 0) ∧
    decode ⟨0x1D010300, 0, 0⟩ = .ok (.feq 1 3) ∧
    decode ⟨0x1E020000, 0, 0⟩ = .ok (.getfmt 2) := by decide

theorem test_decode_codec : 
    decode ⟨0x20010000, 0x7FF, 0⟩ = .ok (.setid 1 0x7FF) ∧
    decode ⟨0x21020000, 0, 0⟩ = .ok (.getid 2) ∧
    decode ⟨0x22010009, 0, 0⟩ = .ok (.setdlc 1 9) ∧
    decode ⟨0x23030000, 0, 0⟩ = .ok (.getdlc 3) ∧
    decode ⟨0x24020000, 0, 0⟩ = .ok (.isext 2) ∧
    decode ⟨0x25010000, 0, 0⟩ = .ok (.isrtr 1) ∧
    decode ⟨0x26030000, 0, 0⟩ = .ok (.isovr 3) ∧
    decode ⟨0x27010001, 0, 0⟩ = .ok (.setrtr 1 1) ∧
    decode ⟨0x28020001, 0, 0⟩ = .ok (.setovr 2 1) ∧
    decode ⟨0x29010000, 0, 0⟩ = .ok (.fclr 1) ∧
    decode ⟨0x2A020000, 0, 0⟩ = .ok (.getctrl 2) := by decide

theorem test_decode_serializer : 
    decode ⟨0x30010000, 0, 0⟩ = .ok (.serd 1) ∧
    decode ⟨0x31000000, 0, 0⟩ = .ok .sera ∧
    decode ⟨0x32000000, 0, 0⟩ = .ok .sere ∧
    decode ⟨0x34030000, 0, 0⟩ = .ok (.desd 3) ∧
    decode ⟨0x35000000, 0, 0⟩ = .ok .desa ∧
    decode ⟨0x36000000, 0, 0⟩ = .ok .dese ∧
    decode ⟨0x38000000, 0, 0⟩ = .ok .bkind ∧
    decode ⟨0x39000000, 3, 0xEF⟩ = .ok (.awr 3 0xEF) ∧
    decode ⟨0x3A000000, 3, 0⟩ = .ok (.ard 3) ∧
    decode ⟨0x3B000000, 2, 0x44⟩ = .ok (.ewr 2 0x44) ∧
    decode ⟨0x3C000000, 1, 0⟩ = .ok (.erd 1) := by decide

theorem test_decode_filter : 
    decode ⟨0x40010400, 0x200, 0x240⟩ = .ok (.flapp 1 4 0x200 0x240) ∧
    decode ⟨0x41000000, 1, 0⟩ = .ok (.flrem 1) ∧
    decode ⟨0x42000000, 0, 0⟩ = .ok .flcnt ∧
    decode ⟨0x43020000, 0, 0⟩ = .ok (.fltest 2) := by decide

theorem test_decode_timestamp : 
    decode ⟨0x50020300, 0, 0⟩ = .ok (.tsadd 2 3) ∧
    decode ⟨0x51030200, 0, 0⟩ = .ok (.tssub 3 2) := by decide

/-- P5 beat 31. -/
theorem test_decode_refuses_unknown_opcode : decode ⟨0x52000000, 0, 0⟩ = .error .unknownOpcode := by decide

/-- P5 beat 33. -/
theorem test_decode_refuses_reserved_field : decode ⟨0x50000101, 0, 0⟩ = .error .reservedField := by decide

/-- `CW`, then `OPA`, then `OPB`, least significant first (notes/assumptions/16.md). -/
theorem test_table_word : decodeTableWord 96 0x000002400000020040010400 = some (.flapp 1 4 0x200 0x240) := by decide

theorem test_encode_finit : encode (.finit 1 3 0x12345678) = ⟨0x10010003, 0x12345678, 0⟩ := by decide

/-! System and buffer access. -/

/-- R220. -/
theorem test_nop : (nextOf (exec .nop State.reset)).rsp = some ⟨true, 0⟩ := by decide

/-- P5 beat 34. -/
theorem test_stat_reads_ill : answer { State.reset with status := 1 } ⟨0x01000000, 0, 0⟩ = some ⟨true, 1⟩ := by decide

/-- P3 beat 6, with upper bits of `OPB` set (R83). -/
theorem test_bufwr_writes : Memory.read (after State.reset ⟨0x60000000, 4, 0x1EF⟩).buf 4 = 0xEF := by decide

/-- R222: 96 is the first offset outside the buffer. -/
theorem test_bufwr_outside : answer State.reset ⟨0x60000000, 96, 1⟩ = some ⟨false, 0⟩ := by decide

/-- P3 beat 22. -/
theorem test_bufrd : answer (withBytes [0x02, 0x11]) ⟨0x61000000, 0, 0⟩ = some ⟨true, 2⟩ := by decide

/-- R223. -/
theorem test_bufrd_outside : answer State.reset ⟨0x61000000, 96, 0⟩ = some ⟨false, 0⟩ := by decide

/-- R224: `BUFSZ` itself is legal. -/
theorem test_setblen_full : (after State.reset ⟨0x62000000, 96, 0⟩).blen = 96 := by decide

/-- R224. -/
theorem test_setblen_too_long : answer State.reset ⟨0x62000000, 97, 0⟩ = some ⟨false, 0⟩ := by decide

/-- R225. -/
theorem test_getblen : answer (withBytes s16) ⟨0x63000000, 0, 0⟩ = some ⟨true, 31⟩ := by decide

/-! Frame model. -/

/-- P4 beats 1 and 2. -/
theorem test_finit_masks : (frame0 State.reset ⟨0x10000000, 0x12345678, 0⟩).id = 0x678 := by decide

/-- M2. -/
theorem test_finit_bad_format : answer State.reset ⟨0x10000004, 5, 0⟩ = some ⟨false, 0⟩ := by decide

/-- P4 beat 6. -/
theorem test_dsize_classic : answer (with0 { Frame.zero with dlc := 9 }) ⟨0x11000000, 0, 0⟩ = some ⟨true, 8⟩ := by decide

/-- P4 beat 38. -/
theorem test_dsize_fd : answer (with0 { ofFmt 2 with dlc := 15 }) ⟨0x11000000, 0, 0⟩ = some ⟨true, 64⟩ := by decide

/-- M7. -/
theorem test_setdat : (frame0 (with0 { Frame.zero with dlc := 1 }) ⟨0x12000000, 0x1FF, 0⟩).data[0] = 0xFF := by decide

/-- M3. -/
theorem test_setdat_hidden : answer State.reset ⟨0x12000000, 1, 0⟩ = some ⟨false, 0⟩ := by decide

/-- M8 beat 3. -/
theorem test_getdat : answer (with0 m8) ⟨0x13000002, 0, 0⟩ = some ⟨true, 0x5A⟩ := by decide

/-- M4. -/
theorem test_getdat_hidden : answer State.reset ⟨0x13000000, 0, 0⟩ = some ⟨false, 0⟩ := by decide

/-- S4. -/
theorem test_setmrk : (frame0 State.reset ⟨0x14000000, 0xFFFFFFFF, 0⟩).marker = 0xFFFFFFFF := by decide

/-- S2. -/
theorem test_getmrk : answer (with0 s2) ⟨0x15000000, 0, 0⟩ = some ⟨true, 1⟩ := by decide

/-- S4. -/
theorem test_setusr : (frame0 State.reset ⟨0x16000000, 0x80000001, 0⟩).user = 0x80000001 := by decide

/-- S2. -/
theorem test_getusr : answer (with0 s2) ⟨0x17000000, 0, 0⟩ = some ⟨true, 2⟩ := by decide

/-- M5. -/
theorem test_setts_caps : (frame0 State.reset ⟨0x18000000, 5, 1000000000⟩).ts = ⟨5, 999999999⟩ := by decide

/-- M6. -/
theorem test_setts_no_sentinel : (frame0 State.reset ⟨0x18000000, 5, 0xFFFFFFFF⟩).ts = ⟨5, 999999999⟩ := by decide

/-- S2. -/
theorem test_gettss : answer (with0 s2) ⟨0x19000000, 0, 0⟩ = some ⟨true, 3⟩ := by decide

/-- S2. -/
theorem test_gettsn : answer (with0 s2) ⟨0x1A000000, 0, 0⟩ = some ⟨true, 4⟩ := by decide

/-- M6. -/
theorem test_tsval : answer (times 5 999999999 0 0) ⟨0x1B000000, 0, 0⟩ = some ⟨true, 1⟩ := by decide

/-- S16. -/
theorem test_tsval_sentinel : answer (times 0xFFFFFFFF 0xFFFFFFFF 0 0) ⟨0x1B000000, 0, 0⟩ = some ⟨true, 0⟩ := by decide

/-- M8 beat 7: field `a` is the destination. -/
theorem test_fcopy : (after (with0 m8) ⟨0x1C020000, 0, 0⟩).frame 2 = m8 := by decide

/-- P4 beat 17. -/
theorem test_feq_hidden : answer (with01 { Frame.zero with dlc := 2 } (Frame.setByte { Frame.zero with dlc := 2 } 7 0x77)) ⟨0x1D000100, 0, 0⟩ = some ⟨true, 1⟩ := by decide

/-- P4 beat 22. -/
theorem test_feq_visible : answer (with01 { Frame.zero with dlc := 8 } (Frame.setByte { Frame.zero with dlc := 8 } 7 0x77)) ⟨0x1D000100, 0, 0⟩ = some ⟨true, 0⟩ := by decide

/-- M8 beat 11. -/
theorem test_getfmt : answer (with0 m8) ⟨0x1E000000, 0, 0⟩ = some ⟨true, 3⟩ := by decide

/-! Bit-layout codec. -/

/-- C2. -/
theorem test_setid_std_fd : (frame0 (with0 (ofFmt 2)) ⟨0x20000000, 0xFFFFFFFF, 0⟩).id = 0x7FF := by decide

/-- C1. -/
theorem test_setid_ext : (frame0 (with0 (ofFmt 1)) ⟨0x20000000, 0x20000000, 0⟩).id = 0 := by decide

/-- S2. -/
theorem test_getid : answer (with0 s2) ⟨0x21000000, 0, 0⟩ = some ⟨true, 0x1FFFFFFF⟩ := by decide

/-- C5. -/
theorem test_setdlc : (frame0 State.reset ⟨0x2200000F, 0, 0⟩).dlc = 15 := by decide

/-- C6. -/
theorem test_setdlc_too_large : answer State.reset ⟨0x22000010, 0, 0⟩ = some ⟨false, 0⟩ := by decide

/-- S2. -/
theorem test_getdlc : answer (with0 s2) ⟨0x23000000, 0, 0⟩ = some ⟨true, 9⟩ := by decide

/-- P4 beat 32. -/
theorem test_isext : answer (with0 (ofFmt 1)) ⟨0x24000000, 0, 0⟩ = some ⟨true, 1⟩ := by decide

/-- C8. -/
theorem test_isrtr : answer (with0 { Frame.zero with ctrl := 4 }) ⟨0x25000000, 0, 0⟩ = some ⟨true, 1⟩ := by decide

/-- C8. -/
theorem test_isovr : answer (with0 { Frame.zero with ctrl := 4 }) ⟨0x26000000, 0, 0⟩ = some ⟨true, 0⟩ := by decide

/-- C8. -/
theorem test_setrtr : (frame0 State.reset ⟨0x27000001, 0, 0⟩).ctrl = 0x04 := by decide

/-- C7. -/
theorem test_setrtr_too_large : answer State.reset ⟨0x27000002, 0, 0⟩ = some ⟨false, 0⟩ := by decide

/-- C9. -/
theorem test_setovr : (frame0 State.reset ⟨0x28000001, 0, 0⟩).ctrl = 0x08 := by decide

/-- M8 beats 9 and 12. -/
theorem test_setovr_clears : (frame0 (with0 m8) ⟨0x28000000, 0, 0⟩).ctrl = 0x07 := by decide

/-- C10. -/
theorem test_fclr : frame0 (with0 m8) ⟨0x29000000, 0, 0⟩ = ofFmt 3 := by decide

/-- M8 beat 6. -/
theorem test_getctrl : answer (with0 m8) ⟨0x2A000000, 0, 0⟩ = some ⟨true, 0x0F⟩ := by decide

/-! Serializer. -/

/-- S2. -/
theorem test_serd_image : Memory.readList (after (with0 s2) ⟨0x30000000, 0, 0⟩).buf 0 31 =
    [0x00, 0x01, 0x09, 0x1F, 0xFF, 0xFF, 0xFF, 1, 2, 3, 4, 5, 6, 7, 8, 0, 0, 0, 1, 0, 0, 0, 2] ++
    [0, 0, 0, 3, 0, 0, 0, 4] := by decide

/-- S2. -/
theorem test_serd_length : answer (with0 s2) ⟨0x30000000, 0, 0⟩ = some ⟨true, 31⟩ := by decide

/-- S20. -/
theorem test_sera : Memory.readList (after { State.reset with apiBody := [0xDE, 0xAD, 0xBE, 0xEF] } ⟨0x31000000, 0, 0⟩).buf 0 5 =
    [0x01, 0xDE, 0xAD, 0xBE, 0xEF] := by decide

/-- P3 beats 21 to 23. -/
theorem test_sere : Memory.readList (after { State.reset with errBody := [0x11, 0, 0, 0x44] } ⟨0x32000000, 0, 0⟩).buf 0 5 =
    [0x02, 0x11, 0, 0, 0x44] := by decide

/-- S16. -/
theorem test_desd_masks : frame0 (withBytes s16) ⟨0x34000000, 0, 0⟩ =
    Frame.mk 0 0x7FF 9 (storeOf [1, 2, 3, 4, 5, 6, 7, 8]) 1 2 ⟨0xFFFFFFFF, 0xFFFFFFFF⟩ := by decide

/-- S11. -/
theorem test_desd_reserved_bit : answer (withBytes (s16.set 1 0x13)) ⟨0x34000000, 0, 0⟩ = some ⟨false, 0⟩ := by decide

/-- S24. -/
theorem test_desa_ignores_trailing : (after (withBytes [0x01, 0xDE, 0xAD, 0xBE, 0xEF, 9, 9, 9, 9]) ⟨0x35000000, 0, 0⟩).apiBody =
    [0xDE, 0xAD, 0xBE, 0xEF] := by decide

/-- P3 beat 18. -/
theorem test_desa_too_short : answer (withBytes [0x01, 0xDE, 0xAD, 0xBE]) ⟨0x35000000, 0, 0⟩ = some ⟨false, 0⟩ := by decide

/-- S23. -/
theorem test_dese_wrong_tag : answer (withBytes [0x01, 0xDE, 0xAD, 0xBE, 0xEF]) ⟨0x36000000, 0, 0⟩ = some ⟨false, 0⟩ := by decide

/-- R168, on the image of P3 beat 21. -/
theorem test_dese : (after (withBytes [0x02, 0x11, 0, 0, 0x44]) ⟨0x36000000, 0, 0⟩).errBody = [0x11, 0, 0, 0x44] := by decide

/-- P3 beat 24. -/
theorem test_bkind_error : answer (withBytes [0x02, 0x11, 0, 0, 0x44]) ⟨0x38000000, 0, 0⟩ = some ⟨true, 2⟩ := by decide

/-- P3 beat 7. -/
theorem test_bkind_empty : answer State.reset ⟨0x38000000, 0, 0⟩ = some ⟨false, 0⟩ := by decide

/-- S20, with upper bits of `OPB` set (R83). -/
theorem test_awr : (after State.reset ⟨0x39000000, 3, 0x1EF⟩).apiBody = [0, 0, 0, 0xEF] := by decide

/-- S21. -/
theorem test_awr_outside : answer State.reset ⟨0x39000000, 4, 0⟩ = some ⟨false, 0⟩ := by decide

/-- P3 beat 15. -/
theorem test_ard : answer { State.reset with apiBody := [0xDE, 0xAD, 0xBE, 0xEF] } ⟨0x3A000000, 3, 0⟩ = some ⟨true, 0xEF⟩ := by decide

/-- P3 beat 16. -/
theorem test_ard_outside : answer State.reset ⟨0x3A000000, 4, 0⟩ = some ⟨false, 0⟩ := by decide

/-- P3 beat 20. -/
theorem test_ewr : (after State.reset ⟨0x3B000000, 3, 0x44⟩).errBody = [0, 0, 0, 0x44] := by decide

/-- P3 beat 19. -/
theorem test_erd : answer { State.reset with errBody := [0x11, 0, 0, 0x44] } ⟨0x3C000000, 0, 0⟩ = some ⟨true, 0x11⟩ := by decide

/-- S22. -/
theorem test_erd_outside : answer State.reset ⟨0x3C000000, 4, 0⟩ = some ⟨false, 0⟩ := by decide

/-! Filter. -/

/-- P2 beat 3. -/
theorem test_flapp : (after State.reset ⟨0x40010400, 0x200, 0x240⟩).ruleList = [⟨1, 4, 0x200, 0x240⟩] := by decide

/-- P2 beat 13. -/
theorem test_flapp_empty_range : answer State.reset ⟨0x40000400, 0x240, 0x200⟩ = some ⟨false, 0⟩ := by decide

/-- L4, on three rules. -/
theorem test_flrem : (after (withRules [⟨1, 0, 0, 0⟩, ⟨1, 0, 1, 1⟩, ⟨1, 0, 2, 2⟩]) ⟨0x41000000, 0, 0⟩).ruleList =
    [⟨1, 0, 1, 1⟩, ⟨1, 0, 2, 2⟩] := by decide

/-- P2 beat 22. -/
theorem test_flrem_outside : answer (withRules [⟨1, 0, 0, 0⟩]) ⟨0x41000000, 1, 0⟩ = some ⟨false, 0⟩ := by decide

/-- R193. -/
theorem test_flcnt : answer (withRules [⟨1, 0, 0, 0⟩, ⟨1, 0, 1, 1⟩]) ⟨0x42000000, 0, 0⟩ = some ⟨true, 2⟩ := by decide

/-- P2 beat 6. -/
theorem test_fltest_last_wins : answer { withRules [⟨1, 4, 0x200, 0x240⟩, ⟨0, 4, 0x200, 0x230⟩] with frames := (with0 { Frame.zero with id := 0x222 }).frames } ⟨0x43000000, 0, 0⟩ = some ⟨true, 0⟩ := by decide

/-- P2 beat 16. -/
theorem test_fltest_other_format : answer { withRules [⟨1, 4, 0x200, 0x240⟩, ⟨0, 1, 0x222, 0x222⟩] with frames := (with0 { Frame.zero with id := 0x222 }).frames } ⟨0x43000000, 0, 0⟩ = some ⟨true, 1⟩ := by decide

/-! Timestamp arithmetic. -/

/-- P5 beats 11 to 13. -/
theorem test_tsadd_carries : (frame0 (times 1 600000000 2 500000000) ⟨0x50000100, 0, 0⟩).ts = ⟨4, 100000000⟩ := by decide

/-- P5 beat 23. -/
theorem test_tsadd_limit : answer (times 0xFFFFFFFF 999999999 0 1) ⟨0x50000100, 0, 0⟩ = some ⟨true, 0⟩ := by decide

/-- P5 beats 27 to 29. -/
theorem test_tssub_borrows : (frame0 (times 3 100000000 1 600000000) ⟨0x51000100, 0, 0⟩).ts = ⟨1, 500000000⟩ := by decide

/-- P5 beats 14 to 17. -/
theorem test_tssub_negative : (frame0 (times 2 500000000 4 100000000) ⟨0x51000100, 0, 0⟩).ts = ⟨0xFFFFFFFF, 0xFFFFFFFF⟩ := by decide

/-! The port. -/

/-- P5 beat 32: `ILL` is set and nothing else changes. -/
theorem test_illegal_index : after (times 17 0 0 0) ⟨0x50040000, 0, 0⟩ =
    { times 17 0 0 0 with status := 1, rsp := some ⟨false, 0⟩ } := by decide

/-- R250. -/
theorem test_reset_clears : (nextOf (step { withBytes s16 with host := [.rst none] })) = State.reset := by decide

/-- SETBLEN 5, run as the first command after reset (P3 beat 8). -/
theorem test_withFetchWord : nextOf (step (State.reset.withFetchWord 96 0x000000000000000562000000)) =
    { State.reset with blen := 5, rsp := some ⟨true, 0⟩ } := by decide

/-! Witnesses: for each statement with hypotheses, a state and operands that meet all of them, for each of
its clauses at a boundary value. -/

/-- A state with something in every part of it. -/
def sample : State :=
  { withRules [⟨1, 4, 0x200, 0x240⟩, ⟨0, 4, 0x200, 0x221⟩] with
    frames := [m8, s2, { Frame.zero with id := 0x222 }, { Frame.zero with id := 0x241 }]
    apiBody := [0xDE, 0xAD, 0xBE, 0xEF]
    errBody := [0x11, 0, 0, 0x44]
    buf := Memory.writeList [] 0 s16
    blen := 31
    status := 1 }

theorem test_reset_inv : State.reset.Inv := by constructor <;> decide

theorem test_sample_inv : sample.Inv := by constructor <;> decide

/-- The sample with other valid bytes. -/
def sampleWith (l : List Byte) : State :=
  { sample with buf := Memory.writeList [] 0 l, blen := BitVec.ofNat 32 l.length }

theorem test_sampleWith_inv (l : List Byte) (h : l ∈ [[], [0x01, 0xDE, 0xAD, 0xBE, 0xEF],
    [0x02, 0x11, 0, 0, 0x44], [0x00], [0x03], [0x01, 0, 0, 0]]) : (sampleWith l).Inv := by
  simp only [List.mem_cons, List.not_mem_nil, or_false] at h
  rcases h with rfl | rfl | rfl | rfl | rfl | rfl <;> constructor <;> decide

theorem test_witness_StepRunsDecodedCommand :
    ({ sample with host := [.beat ⟨0x11030000, 0, 0⟩] } : State).host = .beat ⟨0x11030000, 0, 0⟩ :: [] ∧
    decode ⟨0x11030000, 0, 0⟩ = .ok (.dsize 3) := by decide

/-- A word that no row of the map selects, checked by evaluation. -/
theorem selects_none (w : Word) (h : opcodeMap.all (fun r => w &&& r.2 != r.1) = true) :
    ∀ r ∈ opcodeMap, w &&& r.2 ≠ r.1 := fun r hr => by
  simpa using List.all_eq_true.mp h r hr

theorem test_witness_UnselectedBeatIsIllegal :
    (∀ r ∈ opcodeMap, (0x52000000 : Word) &&& r.2 ≠ r.1) ∧
    (∀ r ∈ opcodeMap, (0x50000101 : Word) &&& r.2 ≠ r.1) ∧
    ({ sample with host := [.beat ⟨0x52000000, 0, 0⟩] } : State).host = .beat ⟨0x52000000, 0, 0⟩ :: [] := ⟨selects_none _ (by decide), selects_none _ (by decide), rfl⟩

theorem test_witness_OpcodeRowsDisjointAndDecoded :
    (0x51030200 : Word) &&& (opcodeMap.getD 44 (0, 0)).2 = (opcodeMap.getD 44 (0, 0)).1 ∧
    (∃ r ∈ opcodeMap, (0x63000000 : Word) &&& r.2 = r.1) ∧ decode ⟨0x63000000, 0, 0⟩ = .ok .getblen := by decide

theorem test_witness_FrameIndexOutOfRangeIsIllegal :
    ¬ (Instr.dsize 4).WellFormed sample.cfg ∧ ¬ (Instr.tsadd 3 4).WellFormed sample.cfg ∧
    ¬ (Instr.fcopy 255 0).WellFormed sample.cfg := by decide

theorem test_witness_DecodedWordIsItsEncoding :
    decode ⟨0x40010400, 0x200, 0x240⟩ = .ok (.flapp 1 4 0x200 0x240) := by decide

theorem test_witness_UnusedOperandWordsIgnored :
    (0x10000003 : Word).extractLsb' 24 8 ∈ [0x10#8, 0x12, 0x14, 0x16, 0x20, 0x41, 0x61, 0x62, 0x3A, 0x3C] ∧
    (0x63000000 : Word).extractLsb' 24 8 ∉ [0x10#8, 0x12, 0x14, 0x16, 0x20, 0x41, 0x61, 0x62, 0x3A, 0x3C] ∧
    (0x63000000 : Word).extractLsb' 24 8 ∉ [0x18#8, 0x40, 0x60, 0x39, 0x3B] ∧
    (encode (.bufrd 4)).cw.extractLsb' 24 8 ∉ [0x18#8, 0x40, 0x60, 0x39, 0x3B] := by decide

theorem test_witness_IdleStepKeepsAllState :
    sample.host = [] := by decide

theorem test_witness_ResetZeroesEveryRegister :
    ({ sample with host := [.rst (some ⟨0x30000000, 0, 0⟩), .rst none] } : State).host =
    .rst (some ⟨0x30000000, 0, 0⟩) :: [.rst none] := by decide

theorem test_witness_FirstAnswersAfterReset :
    Config.vectors.Legal ∧ (3 : Byte).toNat < Config.vectors.nframe ∧ Config.vectors.tagData = 0 := by decide

theorem test_witness_BufwrWritesOneByte :
    Memory.wf sample.buf ∧ (95 : Word).toNat < sample.cfg.bufsz ∧ sample.cfg.bufsz ≤ (96 : Word).toNat := by decide

theorem test_witness_BufrdReadsOneByte :
    (95 : Word).toNat < sample.cfg.bufsz ∧ sample.cfg.bufsz ≤ (96 : Word).toNat := by decide

theorem test_witness_BlenSetAndGet :
    (96 : Word).toNat ≤ sample.cfg.bufsz ∧ sample.cfg.bufsz < (97 : Word).toNat := by decide

theorem test_witness_FinitConstructsFrame :
    sample.HasFrame 3 ∧ (3 : Byte).toNat ≤ 3 ∧ 3 < (4 : Byte).toNat := by decide

theorem test_witness_DsizeAnswersResolvedSize :
    (1 : Byte).toNat < sample.cfg.nframe ∧ (sample.frame 1).ctrl.getLsbD 1 = false ∧
    (0 : Byte).toNat < sample.cfg.nframe ∧ (sample.frame 0).ctrl.getLsbD 1 = true := by decide

theorem test_witness_SetdatWritesVisibleByte :
    sample.HasFrame 1 ∧ (7 : Byte).toNat < (sample.frame 1).size ∧ (sample.frame 1).size ≤ (8 : Byte).toNat := by decide

theorem test_witness_GetdatReadsVisibleByte :
    (1 : Byte).toNat < sample.cfg.nframe ∧ (7 : Fin 64).val = (7 : Byte).toNat ∧
    (7 : Byte).toNat < (sample.frame 1).size ∧ (sample.frame 1).size ≤ (8 : Byte).toNat := by decide

theorem test_witness_MarkerAndUserStored :
    sample.HasFrame 0 ∧ sample.HasFrame 3 := by decide

theorem test_witness_SettsCapsEachComponent :
    sample.HasFrame 0 ∧ sample.HasFrame 3 := by decide

theorem test_witness_SetidMasksToFormat :
    sample.HasFrame 0 ∧ sample.HasFrame 3 := by decide

theorem test_witness_FclrKeepsOnlyFormat :
    sample.HasFrame 0 ∧ sample.HasFrame 3 := by decide

theorem test_witness_FcopyCopiesWholeRegister :
    sample.HasFrame 0 ∧ sample.HasFrame 3 ∧ (3 : Byte) = 3 := by decide

theorem test_witness_TimestampReadsAnswer :
    (3 : Byte).toNat < sample.cfg.nframe := by decide

theorem test_witness_FormatAndControlReads :
    (3 : Byte).toNat < sample.cfg.nframe := by decide

theorem test_witness_IdAndDlcReads :
    (3 : Byte).toNat < sample.cfg.nframe := by decide

theorem test_witness_FlagReadsAnswerControlBits :
    (3 : Byte).toNat < sample.cfg.nframe := by decide

theorem test_witness_FeqComparesVisibleFields :
    (0 : Byte).toNat < sample.cfg.nframe ∧ (3 : Byte).toNat < sample.cfg.nframe := by decide

theorem test_witness_SetdlcStoresAsWritten :
    sample.HasFrame 3 ∧ (15 : Byte).toNat ≤ 15 ∧ 15 < (16 : Byte).toNat := by decide

theorem test_witness_FlagWritesTouchOneBit :
    sample.HasFrame 3 ∧ (1 : Byte).toNat ≤ 1 ∧ 1 < (2 : Byte).toNat := by decide

theorem test_witness_SerdWritesDataImage :
    sample.Inv ∧ (3 : Byte).toNat < sample.cfg.nframe := ⟨test_sample_inv, by decide⟩

theorem test_witness_SeraSereWriteBodyImage :
    sample.Inv := test_sample_inv

theorem test_witness_BodyRoundTrip :
    sample.Inv := test_sample_inv

theorem test_witness_StepAlwaysAnswers :
    sample.Inv := test_sample_inv

theorem test_witness_DesdReadsDataImage :
    sample.HasFrame 3 ∧ sample.blen.toNat ≤ sample.cfg.bufsz ∧
    (23 ≤ sample.blen.toNat ∧ Memory.read sample.buf 0 = sample.cfg.tagData ∧
      (Memory.read sample.buf 1).toNat < 16 ∧ (Memory.read sample.buf 2).toNat ≤ 15 ∧
      (Memory.read sample.buf 1).getLsbD 1 = false ∧
      23 + min (Memory.read sample.buf 2).toNat 8 ≤ sample.blen.toNat) ∧
    (sampleWith []).HasFrame 3 ∧ ¬ 23 ≤ (sampleWith []).blen.toNat := by decide

theorem test_witness_DesaDeseReadBodyImage :
    (sampleWith [0x01, 0xDE, 0xAD, 0xBE, 0xEF]).Inv ∧ (sampleWith [0x02, 0x11, 0, 0, 0x44]).Inv ∧
    (sampleWith [0x01, 0, 0, 0]).Inv ∧
    (1 + sample.cfg.apiLen ≤ (sampleWith [0x01, 0xDE, 0xAD, 0xBE, 0xEF]).blen.toNat ∧
      Memory.read (sampleWith [0x01, 0xDE, 0xAD, 0xBE, 0xEF]).buf 0 = sample.cfg.tagApi) ∧
    (1 + sample.cfg.errLen ≤ (sampleWith [0x02, 0x11, 0, 0, 0x44]).blen.toNat ∧
      Memory.read (sampleWith [0x02, 0x11, 0, 0, 0x44]).buf 0 = sample.cfg.tagError) ∧
    ¬ 1 + sample.cfg.apiLen ≤ (sampleWith [0x01, 0, 0, 0]).blen.toNat ∧
    ¬ 1 + sample.cfg.errLen ≤ (sampleWith [0x01, 0, 0, 0]).blen.toNat := ⟨test_sampleWith_inv _ (by simp), test_sampleWith_inv _ (by simp), test_sampleWith_inv _ (by simp), by decide⟩

theorem test_witness_BkindClassifiesByTag :
    (sampleWith []).Inv ∧ (sampleWith [0x00]).Inv ∧ (sampleWith [0x01, 0xDE, 0xAD, 0xBE, 0xEF]).Inv ∧
    (sampleWith [0x02, 0x11, 0, 0, 0x44]).Inv ∧ (sampleWith [0x03]).Inv ∧ (sampleWith []).blen = 0 ∧
    ((sampleWith [0x00]).blen ≠ 0 ∧ Memory.read (sampleWith [0x00]).buf 0 = sample.cfg.tagData) ∧
    ((sampleWith [0x01, 0xDE, 0xAD, 0xBE, 0xEF]).blen ≠ 0 ∧
      Memory.read (sampleWith [0x01, 0xDE, 0xAD, 0xBE, 0xEF]).buf 0 = sample.cfg.tagApi) ∧
    ((sampleWith [0x02, 0x11, 0, 0, 0x44]).blen ≠ 0 ∧
      Memory.read (sampleWith [0x02, 0x11, 0, 0, 0x44]).buf 0 = sample.cfg.tagError) ∧
    (sampleWith [0x03]).blen ≠ 0 ∧ Memory.read (sampleWith [0x03]).buf 0 ≠ sample.cfg.tagData ∧
    Memory.read (sampleWith [0x03]).buf 0 ≠ sample.cfg.tagApi ∧
    Memory.read (sampleWith [0x03]).buf 0 ≠ sample.cfg.tagError := ⟨test_sampleWith_inv _ (by simp), test_sampleWith_inv _ (by simp), test_sampleWith_inv _ (by simp),
    test_sampleWith_inv _ (by simp), test_sampleWith_inv _ (by simp), by decide⟩

theorem test_witness_ApiBodyByteAccess :
    sample.apiBody.length = sample.cfg.apiLen ∧ (3 : Word).toNat < sample.cfg.apiLen ∧
    sample.cfg.apiLen ≤ (4 : Word).toNat := by decide

theorem test_witness_ErrorBodyByteAccess :
    sample.errBody.length = sample.cfg.errLen ∧ (3 : Word).toNat < sample.cfg.errLen ∧
    sample.cfg.errLen ≤ (4 : Word).toNat := by decide

theorem test_witness_SerializeRoundTrip :
    sample.Inv ∧ (0 : Byte).toNat < sample.cfg.nframe ∧ (3 : Byte).toNat < sample.cfg.nframe := ⟨test_sample_inv, by decide⟩

theorem test_witness_FlappAppendsRule :
    sample.Inv ∧ ((1 : Byte).toNat ≤ 1 ∧ (4 : Byte).toNat ≤ 4 ∧ (7 : Word).toNat ≤ (7 : Word).toNat ∧
      sample.flcnt.toNat < sample.cfg.nfilt) ∧
    ¬ (2 : Byte).toNat ≤ 1 ∧ ¬ (5 : Byte).toNat ≤ 4 ∧ ¬ (8 : Word).toNat ≤ (7 : Word).toNat := ⟨test_sample_inv, by decide⟩

/-- A full list, for the last way in which FLAPP is refused (L3). -/
theorem test_witness_FlappAppendsRule_full :
    (withRules (List.replicate 16 ⟨1, 0, 0, 0⟩)).Inv ∧
    ¬ (withRules (List.replicate 16 ⟨1, 0, 0, 0⟩)).flcnt.toNat < Config.vectors.nfilt :=
  ⟨by constructor <;> decide, by decide⟩

theorem test_witness_FlremClosesGap :
    sample.Inv ∧ (1 : Word).toNat < sample.flcnt.toNat ∧ sample.flcnt.toNat ≤ (2 : Word).toNat := ⟨test_sample_inv, by decide⟩

/-- Register 2 is hit by rule 0 and by no later rule; register 3 is hit by no rule (P2 beats 10 and 20). -/
theorem test_witness_LastMatchingRuleWins :
    sample.Inv ∧ (2 : Byte).toNat < sample.cfg.nframe ∧ (3 : Byte).toNat < sample.cfg.nframe ∧
    (0 < sample.flcnt.toNat ∧ sample.rules[0]? = some ⟨1, 4, 0x200, 0x240⟩ ∧
      (Rule.mk 1 4 0x200 0x240).rfmt.toNat = 4 ∧
      (Rule.mk 1 4 0x200 0x240).low.toNat ≤ (sample.frame 2).id.toNat ∧
      (sample.frame 2).id.toNat ≤ (Rule.mk 1 4 0x200 0x240).high.toNat) ∧
    (∀ (j : Nat) (q : Rule), 0 < j → j < sample.flcnt.toNat → sample.rules[j]? = some q →
      ¬ (q.low.toNat ≤ (sample.frame 2).id.toNat ∧ (sample.frame 2).id.toNat ≤ q.high.toNat)) ∧
    (∀ (j : Nat) (q : Rule), j < sample.flcnt.toNat → sample.rules[j]? = some q →
      ¬ (q.low.toNat ≤ (sample.frame 3).id.toNat ∧ (sample.frame 3).id.toNat ≤ q.high.toNat)) := by
  have hn : sample.flcnt.toNat = 2 := by decide
  have h0 : sample.rules[0]? = some ⟨1, 4, 0x200, 0x240⟩ := by decide
  have h1 : sample.rules[1]? = some ⟨0, 4, 0x200, 0x221⟩ := by decide
  refine ⟨test_sample_inv, by decide, by decide, by decide, fun j q hj hl hq => ?_, fun j q hl hq => ?_⟩
  · obtain rfl : j = 1 := by omega
    rw [h1] at hq
    injection hq with hq
    subst hq
    decide
  · obtain rfl | rfl : j = 0 ∨ j = 1 := by omega
    · rw [h0] at hq
      injection hq with hq
      subst hq
      decide
    · rw [h1] at hq
      injection hq with hq
      subst hq
      decide

theorem test_witness_AppendThenRemoveRestoresList :
    sample.Inv ∧ exec (.flapp 0 1 0x222 0x222) sample = .next (nextOf (exec (.flapp 0 1 0x222 0x222) sample)) ∧
    (nextOf (exec (.flapp 0 1 0x222 0x222) sample)).rsp = some ⟨true, 2⟩ := ⟨test_sample_inv, rfl, by decide⟩

theorem test_witness_VerdictDependsOnListFormatIdOnly :
    (2 : Byte).toNat < sample.cfg.nframe ∧ (0 : Byte).toNat < sample.cfg.nframe ∧
    ({ sample with frames := [{ Frame.zero with id := 0x222, marker := 7, dlc := 3 }], blen := 5 } : State).ruleList =
      sample.ruleList ∧
    (({ sample with frames := [{ Frame.zero with id := 0x222, marker := 7, dlc := 3 }] } : State).frame 0).fmt =
      (sample.frame 2).fmt ∧
    (({ sample with frames := [{ Frame.zero with id := 0x222, marker := 7, dlc := 3 }] } : State).frame 0).id =
      (sample.frame 2).id := by decide

/-- Register 2 is hit, register 3 is not (P2 beats 17 to 20). -/
theorem test_witness_AppendedRuleDecidesWhatItHits :
    sample.Inv ∧ (2 : Byte).toNat < sample.cfg.nframe ∧ (3 : Byte).toNat < sample.cfg.nframe ∧
    exec (.flapp 0 0 0x222 0x222) sample = .next (nextOf (exec (.flapp 0 0 0x222 0x222) sample)) ∧
    (nextOf (exec (.flapp 0 0 0x222 0x222) sample)).rsp = some ⟨true, 2⟩ ∧
    ((0 : Byte).toNat = (sample.frame 2).ctrl.toNat % 4 ∧ (0x222 : Word).toNat ≤ (sample.frame 2).id.toNat ∧
      (sample.frame 2).id.toNat ≤ (0x222 : Word).toNat) ∧
    ¬ (sample.frame 3).id.toNat ≤ (0x222 : Word).toNat := ⟨test_sample_inv, by decide, by decide, rfl, by decide, by decide, by decide⟩

theorem test_witness_TsaddExactOrInvalid :
    (times 0xFFFFFFFE 999999999 0 1).HasFrame 0 ∧ (times 0xFFFFFFFE 999999999 0 1).HasFrame 1 ∧
    (((times 0xFFFFFFFE 999999999 0 1).frame 0).ts.nanos + ((times 0xFFFFFFFE 999999999 0 1).frame 1).ts.nanos) /
      1000000000 ≤ 0xFFFFFFFF ∧
    ¬ (((times 0xFFFFFFFF 999999999 0 1).frame 0).ts.nanos + ((times 0xFFFFFFFF 999999999 0 1).frame 1).ts.nanos) /
      1000000000 ≤ 0xFFFFFFFF ∧
    tsValid Config.vectors ⟨0xFFFFFFFE, 999999999⟩ = true ∧ tsValid Config.vectors ⟨0, 1⟩ = true ∧
    tsValid Config.vectors ⟨0, 1000000000⟩ = false := by decide

/-- Equal times are allowed; one nanosecond more is not. -/
theorem test_witness_TssubExactOrInvalid :
    (times 3 5 3 5).HasFrame 0 ∧ (times 3 5 3 5).HasFrame 1 ∧
    (Timestamp.mk 3 5).nanos ≤ (Timestamp.mk 3 5).nanos ∧ ¬ (Timestamp.mk 3 6).nanos ≤ (Timestamp.mk 3 5).nanos ∧
    tsValid Config.vectors ⟨3, 5⟩ = true ∧ tsValid Config.vectors ⟨3, 1000000000⟩ = false := by decide

/-- The outcome is a next state (its response is read). -/
theorem test_witness_SubtractUndoesAdd :
    (times 1 600000000 2 500000000).HasFrame 0 ∧ (times 1 600000000 2 500000000).HasFrame 1 ∧ (0 : Byte) ≠ 1 ∧
    (nextOf (exec (.tsadd 0 1) (times 1 600000000 2 500000000))).rsp = some ⟨true, 1⟩ := by decide

/-- Both orders run. -/
theorem test_witness_FlagSettersCommute :
    exec (.setrtr 0 1) sample = .next (nextOf (exec (.setrtr 0 1) sample)) ∧
    exec (.setid 0 5) (nextOf (exec (.setrtr 0 1) sample)) =
      .next (nextOf (exec (.setid 0 5) (nextOf (exec (.setrtr 0 1) sample)))) ∧
    exec (.setid 0 5) sample = .next (nextOf (exec (.setid 0 5) sample)) ∧
    exec (.setrtr 0 1) (nextOf (exec (.setid 0 5) sample)) =
      .next (nextOf (exec (.setrtr 0 1) (nextOf (exec (.setid 0 5) sample)))) := ⟨rfl, rfl, rfl, rfl⟩

theorem test_witness_AdditionCommutes :
    (times 1 600000000 2 500000000).HasFrame 0 ∧ (times 1 600000000 2 500000000).HasFrame 1 ∧
    exec (.tsadd 0 1) (times 1 2 3 4) = .next (nextOf (exec (.tsadd 0 1) (times 1 2 3 4))) ∧
    exec (.tsadd 1 0) (times 1 2 3 4) = .next (nextOf (exec (.tsadd 1 0) (times 1 2 3 4))) := ⟨by decide, by decide, rfl, rfl⟩

theorem test_witness_ResetMeetsInvariants :
    Config.vectors.Legal := by decide

/-- FLREM of rule 0. -/
theorem test_witness_StepKeepsInvariants :
    ({ sample with host := [.beat ⟨0x41000000, 0, 0⟩] } : State).Inv ∧
    step { sample with host := [.beat ⟨0x41000000, 0, 0⟩] } =
      .next (nextOf (step { sample with host := [.beat ⟨0x41000000, 0, 0⟩] })) ∧
    (nextOf (step { sample with host := [.beat ⟨0x41000000, 0, 0⟩] })).flcnt = 1 := ⟨by constructor <;> decide, rfl, by decide⟩

theorem test_witness_RefusedCommandChangesNothing :
    exec (.setdlc 0 16) sample = .next { sample with rsp := some ⟨false, 0⟩ } ∧
    (Instr.setdlc 0 16).WellFormed sample.cfg ∧ (nextOf (exec (.dsize 4) sample)).rsp = some ⟨false, 0⟩ ∧
    ¬ (Instr.dsize 4).WellFormed sample.cfg := ⟨rfl, by decide, by decide, by decide⟩

theorem test_witness_IllIsStickyUntilReset :
    ({ sample with host := [.beat ⟨0x01000000, 0, 0⟩] } : State).ill = true ∧
    (∀ lost, ({ sample with host := [.beat ⟨0x01000000, 0, 0⟩] } : State).host.head? ≠ some (.rst lost)) ∧
    (nextOf (step { sample with host := [.beat ⟨0x01000000, 0, 0⟩] })).rsp = some ⟨true, 1⟩ := ⟨by decide, fun _ h => by simp at h, by decide⟩

theorem test_witness_FlagsHaveOnlyTheirWriters :
    exec (.finit 0 0 0) sample = .next (nextOf (exec (.finit 0 0 0) sample)) ∧ sample.frames[0]? = some m8 ∧
    (nextOf (exec (.finit 0 0 0) sample)).frames[0]? = some Frame.zero ∧ m8.fmt ≠ Frame.zero.fmt ∧
    m8.ctrl.getLsbD 2 ≠ Frame.zero.ctrl.getLsbD 2 ∧ m8.ctrl.getLsbD 3 ≠ Frame.zero.ctrl.getLsbD 3 := ⟨rfl, by decide, by decide, by decide, by decide, by decide⟩

/-- Each clause has a command that writes the register. -/
theorem test_witness_RegistersHaveOnlyTheirWriters :
    (nextOf (exec (.flrem 0) sample)).flcnt ≠ sample.flcnt ∧
    Memory.read (nextOf (exec (.bufwr 95 1) sample)).buf 95 ≠ Memory.read sample.buf 95 ∧
    (nextOf (exec (.setblen 96) sample)).blen ≠ sample.blen ∧
    (nextOf (exec (.awr 3 0) sample)).apiBody ≠ sample.apiBody ∧
    (nextOf (exec (.ewr 3 0) sample)).errBody ≠ sample.errBody := by decide

theorem test_witness_OtherFrameRegistersUntouched :
    exec (.fclr 1) sample = .next (nextOf (exec (.fclr 1) sample)) ∧
    (nextOf (exec (.fclr 1) sample)).frames[1]? ≠ sample.frames[1]? := ⟨rfl, by decide⟩

theorem test_witness_EveryHostIsAnswered :
    sample.Inv ∧ ∀ q : List Response, ((fun _ => some ⟨0x01000000, 0, 0⟩ : List Response → Option Beat) q).isSome = true := ⟨test_sample_inv, fun _ => rfl⟩

end Sys2Proof.Tests
end

section
/-! The port, one equation per case: how a beat is served, and what a step does with the host's next
event (spec/00_scope.md R9, spec/20_memory.md R70). -/

namespace Sys2Proof.Machine

/-- A beat that decodes is executed. -/
theorem serveBeat_of_decode_ok {b : Beat} {i : Instr} (h : decode b = .ok i) (s : State) :
    serveBeat b s = exec i s := by
  rw [serveBeat, h]

/-- A beat that does not decode is answered by `illegal()` (R84, R85). -/
theorem serveBeat_of_decode_error {b : Beat} {e : Reject} (h : decode b = .error e) (s : State) :
    serveBeat b s = s.illegal := by
  rw [serveBeat, h]

/-- A beat at the head of the host's list is taken off the list and served. -/
theorem step_of_beat {s : State} {b : Beat} {rest : List PortEvent}
    (h : s.host = .beat b :: rest) : step s = serveBeat b { s with host := rest } := by
  rw [step, servePort, h]

/-- `rst` at the head of the host's list is taken off the list and resets the block (R250). -/
theorem step_of_rst {s : State} {lost : Option Beat} {rest : List PortEvent}
    (h : s.host = .rst lost :: rest) : step s = .next (serveReset { s with host := rest }) := by
  rw [step, servePort, h]

/-- With nothing offered the step is idle (R242). -/
theorem step_of_host_nil {s : State} (h : s.host = []) : step s = .next (serveNothing s) := by
  rw [step, servePort, h]

/-- Settles O1: the step takes the beat off the host's list, and serving a beat that decodes executes
its command. -/
theorem stepRunsDecodedCommand : Obligations.StepRunsDecodedCommand := by
  intro s b rest i hhost hdecode
  calc step s = serveBeat b { s with host := rest } := step_of_beat hhost
    _ = exec i { s with host := rest } := serveBeat_of_decode_ok hdecode _

end Sys2Proof.Machine
end

section
/-! What a step can do, said once, and that reset and every step keep the invariants
(spec/10_state.md R42, R44, R20, R60). -/

namespace Sys2Proof.Machine

/-- Everything a step can do: nothing offered, `rst`, a beat that does not decode, a command. -/
inductive StepEffect (s : State) : State → Prop
  | idle (h : s.host = []) : StepEffect s (serveNothing s)
  | rst (lost rest) (h : s.host = .rst lost :: rest) :
      StepEffect s (serveReset { s with host := rest })
  | undecoded (b rest) (h : s.host = .beat b :: rest) :
      StepEffect s { s with host := rest, status := s.status ||| 1, rsp := some ⟨false, 0⟩ }
  | command (b rest i t) (h : s.host = .beat b :: rest) (hd : decode b = .ok i)
      (he : Effect { s with host := rest } i t) : StepEffect s t

/-- Every next state of a step is one of its effects. -/
theorem step_effect {s t : State} (h : step s = .next t) : StepEffect s t := by
  match hs : s.host with
  | [] =>
    rw [step_of_host_nil hs] at h
    injection h with h
    exact h ▸ .idle hs
  | .rst lost :: rest =>
    rw [step_of_rst hs] at h
    injection h with h
    exact h ▸ .rst lost rest hs
  | .beat b :: rest =>
    rw [step_of_beat hs] at h
    match hd : decode b with
    | .ok i =>
      rw [serveBeat_of_decode_ok hd] at h
      exact .command b rest i t hs hd (exec_effect h)
    | .error _ =>
      rw [serveBeat_of_decode_error hd, State.illegal_eq] at h
      injection h with h
      exact h ▸ .undecoded b rest hs

/-! Frames. -/

/-- A cleared register meets R44 (1) and (2). -/
theorem Frame.zero_inv : Frame.zero.Inv := by decide

@[simp] theorem ctrlFmt_ctrlOfFmt (f : BitVec 2) : ctrlFmt (ctrlOfFmt f) = f := by
  revert f; decide

/-- Writing a bit above the format code keeps the format (R148, R149). -/
theorem ctrlFmt_ctrlSetBit (c : Byte) {j : Nat} (hlo : 2 ≤ j) (hhi : j < 8) (v : BitVec 1) :
    ctrlFmt (ctrlSetBit c j v) = ctrlFmt c := by
  apply BitVec.eq_of_getLsbD_eq
  intro k hk
  simp [ctrlFmt, ctrlSetBit_get c j hhi, show k ≠ j by omega]

/-- Writing a bit below the reserved ones keeps those. -/
theorem ctrlReserved_ctrlSetBit (c : Byte) {j : Nat} (hj : j < 4) (v : BitVec 1) :
    ctrlReserved (ctrlSetBit c j v) = ctrlReserved c := by
  apply BitVec.eq_of_getLsbD_eq
  intro k hk
  simp [ctrlReserved, ctrlSetBit_get c j (by omega), show 4 + k ≠ j by omega]

/-- A fresh frame meets R44 (1) and (2): its identifier is masked on entry (R25). -/
theorem freshFrame_inv (f : BitVec 2) (v : Word) : (freshFrame f v).Inv := by
  refine ⟨?_, (show ∀ f : BitVec 2, (ctrlOfFmt f).toNat < 16 by decide) f⟩
  have hfmt : (freshFrame f v).fmt = f := ctrlFmt_ctrlOfFmt f
  rw [hfmt]
  exact idMask_idem f v

/-- The invariants of a frame speak of its control byte and its identifier only. -/
theorem Frame.Inv.congr {f g : Frame} (h : f.Inv) (hctrl : g.ctrl = f.ctrl) (hid : g.id = f.id) :
    g.Inv := by
  simpa only [Frame.Inv, Frame.fmt, hctrl, hid] using h

/-- SETID masks to the frame's own format (R141). -/
theorem Frame.Inv.setId {f : Frame} (h : f.Inv) (v : Word) :
    Frame.Inv { f with id := v &&& idMask f.fmt } :=
  ⟨idMask_idem f.fmt v, h.2⟩

/-- Writing RTR or OVR leaves the format, so the identifier stays masked (R148, R149). -/
theorem Frame.Inv.setCtrlBit {f : Frame} (h : f.Inv) {j : Nat} (hlo : 2 ≤ j) (hhi : j < 4)
    (v : BitVec 1) : Frame.Inv { f with ctrl := ctrlSetBit f.ctrl j v } := by
  obtain ⟨hid, hctrl⟩ := h
  refine ⟨?_, ?_⟩
  · have hfmt : Frame.fmt { f with ctrl := ctrlSetBit f.ctrl j v } = f.fmt :=
      ctrlFmt_ctrlSetBit f.ctrl hlo (by omega) v
    rw [hfmt]
    exact hid
  · rw [← ctrlReserved_eq_zero_iff] at hctrl ⊢
    rw [ctrlReserved_ctrlSetBit f.ctrl hhi v, hctrl]

/-! The operations on the state keep the invariants. -/

/-- The host's list and the response are not part of the invariants. -/
theorem State.Inv.withPort {s : State} (h : s.Inv) (host : List PortEvent) (rsp : Option Response) :
    State.Inv { s with host := host, rsp := rsp } := { h with }

/-- Giving a response keeps the invariants. -/
theorem State.Inv.respond {s : State} (h : s.Inv) (ok : Bool) (rv : Word) :
    (s.respond ok rv).Inv := h.withPort s.host _

/-- Setting `ILL` leaves the other bits of `STATUS` zero (R44 (8)). -/
theorem State.Inv.setIll {s : State} (h : s.Inv) (rsp : Option Response) :
    State.Inv { s with status := s.status ||| 1, rsp := rsp } :=
  { h with
    status := by
      have hs := h.status
      have hor := Nat.or_lt_two_pow (n := 1) (show s.status.toNat < 2 ^ 1 by omega)
        (show 1 < 2 ^ 1 by omega)
      show (s.status ||| 1#32).toNat ≤ 1
      rw [BitVec.toNat_or]
      exact Nat.le_of_lt_succ hor }

/-- Under the invariants the register at a legal index meets R44 (1) and (2). -/
theorem State.Inv.frame_inv {s : State} (h : s.Inv) {a : Byte} (ha : a.toNat < s.cfg.nframe) :
    (s.frame a).Inv := h.frame _ (s.frame_mem a (h.hasFrame ha))

/-- Writing a register and answering. -/
theorem State.Inv.writeFrame {s : State} (h : s.Inv) {a : Byte} {f : Frame} (hf : f.Inv)
    {ok : Bool} {rv : Word} : ((s.setFrame a f).respond ok rv).Inv :=
  State.Inv.respond (s := s.setFrame a f)
    { h with
      frames := by simp [h.frames]
      frame := fun g hg => (List.mem_or_eq_of_mem_set hg).elim (h.frame g) (· ▸ hf) } ok rv

/-- A body of `API_LEN` bytes (R33). -/
theorem State.Inv.setApiBody {s : State} (h : s.Inv) {l : List Byte}
    (hl : l.length = s.cfg.apiLen) (rsp : Option Response) :
    State.Inv { s with apiBody := l, rsp := rsp } := { h with api := hl }

/-- A body of `ERR_LEN` bytes (R33). -/
theorem State.Inv.setErrBody {s : State} (h : s.Inv) {l : List Byte}
    (hl : l.length = s.cfg.errLen) (rsp : Option Response) :
    State.Inv { s with errBody := l, rsp := rsp } := { h with err := hl }

/-- A length within the buffer (R44 (7)). -/
theorem State.Inv.setBlen {s : State} (h : s.Inv) {x : Word} (hx : x.toNat ≤ s.cfg.bufsz)
    (rsp : Option Response) : State.Inv { s with blen := x, rsp := rsp } := { h with valid := hx }

/-- A write inside the buffer keeps its canonical form and every byte below `BUFSZ` (R60). -/
theorem State.Inv.writeBuf {s : State} (h : s.Inv) {x : Nat} (hx : x < s.cfg.bufsz) (v : Byte)
    (rsp : Option Response) : State.Inv { s with buf := Memory.write s.buf x v, rsp := rsp } :=
  { h with
    canonical := Memory.write_wf s.buf x v h.canonical
    inside := fun c hc => by
      rcases Memory.mem_write s.buf x v c hc with hc | ⟨rfl, -⟩
      · exact h.inside c hc
      · exact hx }

/-- An image that fits is stored inside the buffer, and its length is a legal `BLEN` (R65). -/
theorem State.Inv.storeImage {s : State} (h : s.Inv) {l : List Byte}
    (hl : l.length ≤ s.cfg.bufsz) (rsp : Option Response) :
    State.Inv { s with
      buf := Memory.writeList s.buf 0 l, blen := BitVec.ofNat 32 l.length, rsp := rsp } :=
  { h with
    valid := by
      rw [BitVec.toNat_ofNat]
      exact Nat.le_trans (Nat.mod_le _ _) hl
    canonical := Memory.writeList_wf l s.buf 0 h.canonical
    inside := fun c hc => by
      rcases Memory.mem_writeList l s.buf 0 c hc with hc | ⟨-, hlt⟩
      · exact h.inside c hc
      · exact Nat.lt_of_lt_of_le (by omega) hl }

/-! The rule file. -/

/-- A rule of the list stands in a slot below `FLCNT` (R34). -/
theorem State.mem_ruleList {s : State} {r : Rule} :
    r ∈ s.ruleList ↔ ∃ k, k < s.flcnt.toNat ∧ s.rules[k]? = some r := by
  simp only [State.ruleList, List.mem_iff_getElem?, List.getElem?_take]
  refine exists_congr fun k => ?_
  split <;> simp [*]

/-- A list with a free slot takes one more well-formed rule (R191). -/
theorem State.Inv.appendRule {s : State} (h : s.Inv) (hfree : s.flcnt.toNat ≠ s.cfg.nfilt)
    {r : Rule} (hr : r.Inv) : (s.appendRule r).Inv := by
  obtain ⟨-, ⟨-, hnfilt⟩, -⟩ := h.legal
  have hcount := h.count
  have hcnt : (s.flcnt + 1).toNat = s.flcnt.toNat + 1 := by
    simp [BitVec.toNat_add]; omega
  refine { h with slots := by simp [h.slots], count := ?_, rule := fun q hq => ?_ }
  · simp only [State.appendRule_flcnt, State.appendRule_cfg]
    omega
  · obtain ⟨k, hk, hget⟩ := State.mem_ruleList.mp hq
    simp only [State.appendRule_flcnt, State.appendRule_rules] at hk hget
    by_cases heq : s.flcnt.toNat = k
    · rw [heq, List.getElem?_set_self (by rw [h.slots]; omega)] at hget
      injection hget with hget
      exact hget ▸ hr
    · rw [List.getElem?_set_ne heq] at hget
      exact h.rule q (State.mem_ruleList.mpr ⟨k, by omega, hget⟩)

/-- After a gap is closed every rule of the list was in the list before (R192). -/
theorem State.Inv.removeRule {s : State} (h : s.Inv) {i : Nat} (hi : i < s.flcnt.toNat) :
    (s.removeRule i).Inv := by
  have hcount := h.count
  have hcnt : (s.flcnt - 1).toNat = s.flcnt.toNat - 1 := by
    bv_omega
  refine { h with slots := by simp [h.slots], count := ?_, rule := fun q hq => ?_ }
  · simp only [State.removeRule_flcnt, State.removeRule_cfg]
    omega
  · obtain ⟨k, hk, hget⟩ := State.mem_ruleList.mp hq
    simp only [State.removeRule_flcnt, State.removeRule_rules] at hk hget
    rw [closeGap_get _ _ _ _ (by rw [h.slots]; omega)] at hget
    exact h.rule q (State.mem_ruleList.mpr ⟨_, by split <;> omega, hget⟩)

/-! Commands, reset and the step. -/

/-- Every effect of a command keeps the invariants. -/
theorem Effect.inv {s t : State} {i : Instr} (e : Effect s i t) (h : s.Inv) : t.Inv := by
  cases e with
  | ill => exact h.setIll _
  | fail | ok => exact h.respond _ _
  | finit | fclr => exact h.writeFrame (freshFrame_inv _ _)
  | desd a f _ hf => exact h.writeFrame hf
  | fcopy a b _ hb => exact h.writeFrame (h.frame_inv hb)
  | setdat _ _ _ ha | setmrk _ _ ha | setusr _ _ ha | setts _ _ _ _ ha | setdlc _ _ ha
  | tsadd _ _ _ ha | tssub _ _ _ ha =>
    apply h.writeFrame
    exact (h.frame_inv ha).congr rfl rfl
  | setid a v ha => exact h.writeFrame ((h.frame_inv ha).setId v)
  | setrtr a imm ha | setovr a imm ha =>
    exact h.writeFrame ((h.frame_inv ha).setCtrlBit (by decide) (by decide) _)
  | serd _ l _ hl | sera l hl | sere l hl => exact h.storeImage hl _
  | desa l _ hl => exact h.setApiBody hl _
  | dese l _ hl => exact h.setErrBody hl _
  | awr => exact h.setApiBody (by rw [List.length_set, h.api]) _
  | ewr => exact h.setErrBody (by rw [List.length_set, h.err]) _
  | flapp a b lo hi _ hb hrange hfree =>
    refine (h.appendRule hfree ⟨hrange, ?_⟩).respond _ _
    simp only [BitVec.extractLsb'_toNat]
    omega
  | flrem x hx => exact (h.removeRule hx).respond _ _
  | bufwr x v hx => exact h.writeBuf hx _ _
  | setblen x hx => exact h.setBlen hx _

/-- The reset values meet the invariants under every legal configuration (R42). -/
theorem State.resetOf_inv {c : Config} (hc : c.Legal) : (State.resetOf c).Inv where
  legal := hc
  frames := by simp
  api := by simp
  err := by simp
  slots := by simp
  frame f hf := List.eq_of_mem_replicate hf ▸ Frame.zero_inv
  count := by simp
  rule r hr := by simp [State.ruleList] at hr
  valid := by simp
  canonical := by simp [Memory.wf]
  inside c hc := by simp at hc
  status := by simp

/-- Every effect of a step keeps the invariants. -/
theorem StepEffect.inv {s t : State} (e : StepEffect s t) (h : s.Inv) : t.Inv := by
  cases e with
  | idle => exact h.withPort s.host none
  | rst _ rest => exact (State.resetOf_inv h.legal).withPort rest none
  | undecoded _ rest => exact (h.withPort rest s.rsp).setIll _
  | command _ rest _ _ _ _ he => exact he.inv (h.withPort rest s.rsp)

/-- Settles O53: from what a step can do, each operation keeping the invariants. -/
theorem stepKeepsInvariants : Obligations.StepKeepsInvariants := by
  intro s t hinv hstep
  exact (step_effect hstep).inv hinv

/-- Settles O52: the reset values meet the invariants, and the vectors' parameters are legal. -/
theorem resetMeetsInvariants : Obligations.ResetMeetsInvariants :=
  ⟨fun _ hc => State.resetOf_inv hc, State.resetOf_inv (by decide)⟩

/-- Settles O10: `rst` answers the reset values, whose elements are all zero. -/
theorem resetZeroesEveryRegister : Obligations.ResetZeroesEveryRegister := by
  intro s lost rest hhost
  refine ⟨_, step_of_rst hhost, rfl, rfl, rfl, by simp, fun f hf => ?_, by simp,
    fun _ hv => List.eq_of_mem_replicate hv, by simp, fun _ hv => List.eq_of_mem_replicate hv,
    by simp, fun r hr => ?_, rfl, fun _ => rfl, rfl, rfl⟩
  · obtain rfl := List.eq_of_mem_replicate hf
    exact ⟨rfl, rfl, rfl, by simp [Frame.zero], rfl, rfl, rfl, rfl⟩
  · obtain rfl := List.eq_of_mem_replicate hr
    exact ⟨rfl, rfl, rfl, rfl⟩

end Sys2Proof.Machine
end

section
/-! Which commands write which state (spec/10_state.md R28, R33, R34, R37, R38, R43; spec/20_memory.md
R61). -/

namespace Sys2Proof.Machine

/-! `STATUS`. -/

/-- A command keeps `STATUS` or sets `ILL` (R37). -/
theorem Effect.status_eq {s t : State} {i : Instr} (e : Effect s i t) :
    t.status = s.status ∨ t.status = s.status ||| 1 := by
  cases e with
  | ill => exact .inr rfl
  | _ => exact .inl rfl

/-- `ILL` stays set where `STATUS` is kept or `ILL` is set. -/
theorem State.ill_of_status {s t : State} (h : t.status = s.status ∨ t.status = s.status ||| 1)
    (hs : s.ill = true) : t.ill = true := by
  unfold State.ill at hs ⊢
  rcases h with h | h
  · rw [h, hs]
  · rw [h, BitVec.getLsbD_or, hs, Bool.true_or]

/-- Settles O56: of the effects of a step only `rst` can clear a bit of `STATUS`. -/
theorem illIsStickyUntilReset : Obligations.IllIsStickyUntilReset := by
  intro s t hstep hill hno
  cases step_effect hstep with
  | idle => exact hill
  | rst lost rest h => exact absurd (by rw [h]; rfl) (hno lost)
  | undecoded => exact State.ill_of_status (.inr rfl) hill
  | command _ rest _ _ _ _ he =>
    exact State.ill_of_status (s := { s with host := rest }) he.status_eq hill

/-! Frame registers. -/

/-- What a command that writes a frame register does to its control byte: R28's table. -/
inductive CtrlEffect : Instr → Byte → Byte → Prop
  | kept (i c) : CtrlEffect i c c
  | finit (a imm v c d) : CtrlEffect (.finit a imm v) c d
  | desd (a c d) : CtrlEffect (.desd a) c d
  | fcopy (a b c d) : CtrlEffect (.fcopy a b) c d
  | setrtr (a imm c v) : CtrlEffect (.setrtr a imm) c (ctrlSetBit c rtrBit v)
  | setovr (a imm c v) : CtrlEffect (.setovr a imm) c (ctrlSetBit c ovrBit v)
  | fclr (a c) : CtrlEffect (.fclr a) c (ctrlOfFmt (ctrlFmt c))

/-- R28, `ctrl[1:0]`: a command that is none of its writers keeps the format code. -/
theorem CtrlEffect.fmt_writers {i : Instr} {c d : Byte} (h : CtrlEffect i c d) :
    ctrlFmt c = ctrlFmt d ∨
      (∃ a imm v, i = .finit a imm v) ∨ (∃ a, i = .desd a) ∨ ∃ a b, i = .fcopy a b := by
  cases h with
  | kept => exact .inl rfl
  | finit a imm v => exact .inr (.inl ⟨a, imm, v, rfl⟩)
  | desd a => exact .inr (.inr (.inl ⟨a, rfl⟩))
  | fcopy a b => exact .inr (.inr (.inr ⟨a, b, rfl⟩))
  | setrtr | setovr => exact .inl (ctrlFmt_ctrlSetBit c (by decide) (by decide) _).symm
  | fclr => exact .inl (ctrlFmt_ctrlOfFmt _).symm

/-- R28, `RTR`: SETOVR keeps it, since it writes bit 3 alone. -/
theorem CtrlEffect.rtr_writers {i : Instr} {c d : Byte} (h : CtrlEffect i c d) :
    c.getLsbD 2 = d.getLsbD 2 ∨ (∃ a imm v, i = .finit a imm v) ∨ (∃ a, i = .desd a) ∨
      (∃ a b, i = .fcopy a b) ∨ (∃ a imm, i = .setrtr a imm) ∨ ∃ a, i = .fclr a := by
  cases h with
  | kept => exact .inl rfl
  | finit a imm v => exact .inr (.inl ⟨a, imm, v, rfl⟩)
  | desd a => exact .inr (.inr (.inl ⟨a, rfl⟩))
  | fcopy a b => exact .inr (.inr (.inr (.inl ⟨a, b, rfl⟩)))
  | setrtr a imm => exact .inr (.inr (.inr (.inr (.inl ⟨a, imm, rfl⟩))))
  | setovr => exact .inl (ctrlSetBit_get c ovrBit (by decide) _ 2).symm
  | fclr a => exact .inr (.inr (.inr (.inr (.inr ⟨a, rfl⟩))))

/-- R28, `OVR`: SETRTR keeps it, since it writes bit 2 alone. -/
theorem CtrlEffect.ovr_writers {i : Instr} {c d : Byte} (h : CtrlEffect i c d) :
    c.getLsbD 3 = d.getLsbD 3 ∨ (∃ a imm v, i = .finit a imm v) ∨ (∃ a, i = .desd a) ∨
      (∃ a b, i = .fcopy a b) ∨ (∃ a imm, i = .setovr a imm) ∨ ∃ a, i = .fclr a := by
  cases h with
  | kept => exact .inl rfl
  | finit a imm v => exact .inr (.inl ⟨a, imm, v, rfl⟩)
  | desd a => exact .inr (.inr (.inl ⟨a, rfl⟩))
  | fcopy a b => exact .inr (.inr (.inr (.inl ⟨a, b, rfl⟩)))
  | setrtr => exact .inl (ctrlSetBit_get c rtrBit (by decide) _ 3).symm
  | setovr a imm => exact .inr (.inr (.inr (.inr (.inl ⟨a, imm, rfl⟩))))
  | fclr a => exact .inr (.inr (.inr (.inr (.inr ⟨a, rfl⟩))))

/-- A command keeps all frame registers or writes the one its first index names (R43). -/
theorem Effect.frames_cases {s t : State} {i : Instr} (e : Effect s i t) :
    t.frames = s.frames ∨ ∃ a f, i.frameIndices.head? = some a ∧
      t.frames = s.frames.set a.toNat f ∧ CtrlEffect i (s.frame a).ctrl f.ctrl := by
  cases e with
  | finit a imm v => exact .inr ⟨a, _, rfl, rfl, .finit ..⟩
  | desd a => exact .inr ⟨a, _, rfl, rfl, .desd ..⟩
  | fcopy a b => exact .inr ⟨a, _, rfl, rfl, .fcopy ..⟩
  | setrtr a imm => exact .inr ⟨a, _, rfl, rfl, .setrtr ..⟩
  | setovr a imm => exact .inr ⟨a, _, rfl, rfl, .setovr ..⟩
  | fclr a => exact .inr ⟨a, _, rfl, rfl, .fclr ..⟩
  | setdat a | setmrk a | setusr a | setts a | setid a | setdlc a | tsadd a | tssub a =>
    exact .inr ⟨a, _, rfl, rfl, .kept ..⟩
  | _ => exact .inl rfl

/-- What a command does to the control byte of any one register. -/
theorem Effect.ctrlEffect {s t : State} {i : Instr} (e : Effect s i t) {k : Nat} {f g : Frame}
    (hf : s.frames[k]? = some f) (hg : t.frames[k]? = some g) : CtrlEffect i f.ctrl g.ctrl := by
  have kept (h : s.frames[k]? = t.frames[k]?) : CtrlEffect i f.ctrl g.ctrl := by
    rw [hf, hg] at h
    injection h with h
    exact h ▸ .kept ..
  rcases e.frames_cases with h | ⟨a, w, -, hset, hctrl⟩
  · exact kept (by rw [h])
  · by_cases hk : a.toNat = k
    · obtain ⟨hlt, -⟩ := List.getElem?_eq_some_iff.mp hf
      have hold : s.frame a = f := by simp [State.frame, List.getD, hk, hf]
      have hnew : w = g := by simpa [hset, hk, hlt] using hg
      rwa [hold, hnew] at hctrl
    · exact kept (by rw [hset, List.getElem?_set_ne hk])

/-- Settles O57: from what a command does to a control byte. -/
theorem flagsHaveOnlyTheirWriters : Obligations.FlagsHaveOnlyTheirWriters := by
  intro i s t k f g hexec hf hg
  have hctrl := (exec_effect hexec).ctrlEffect hf hg
  exact ⟨hctrl.fmt_writers.resolve_left, hctrl.rtr_writers.resolve_left,
    hctrl.ovr_writers.resolve_left⟩

/-- Settles O59: all frame registers are kept, or the one at the first index is written. -/
theorem otherFrameRegistersUntouched : Obligations.OtherFrameRegistersUntouched := by
  intro i s t hexec
  rcases (exec_effect hexec).frames_cases with h | ⟨a, f, ha, hset, -⟩
  · exact ⟨by rw [h], fun k hk => absurd (by rw [h]) hk⟩
  · refine ⟨by rw [hset, List.length_set], fun k hk => ⟨a, ha, ?_⟩⟩
    by_contra hne
    exact hk (by rw [hset, List.getElem?_set_ne hne])

/-! The other registers. -/

/-- R38, R34: the rule file and its count. -/
theorem Effect.rules_writers {s t : State} {i : Instr} (e : Effect s i t) :
    (t.flcnt = s.flcnt ∧ t.rules = s.rules) ∨
      (∃ a b l h, i = .flapp a b l h) ∨ ∃ x, i = .flrem x := by
  cases e with
  | flapp a b lo hi => exact .inr (.inl ⟨a, b, lo, hi, rfl⟩)
  | flrem x => exact .inr (.inr ⟨x, rfl⟩)
  | _ => exact .inl ⟨rfl, rfl⟩

/-- R61: the byte buffer. -/
theorem Effect.buf_writers {s t : State} {i : Instr} (e : Effect s i t) :
    t.buf = s.buf ∨ (∃ a, i = .serd a) ∨ i = .sera ∨ i = .sere ∨ ∃ x v, i = .bufwr x v := by
  cases e with
  | serd a => exact .inr (.inl ⟨a, rfl⟩)
  | sera => exact .inr (.inr (.inl rfl))
  | sere => exact .inr (.inr (.inr (.inl rfl)))
  | bufwr x v => exact .inr (.inr (.inr (.inr ⟨x, v, rfl⟩)))
  | _ => exact .inl rfl

/-- R38: `BLEN`. -/
theorem Effect.blen_writers {s t : State} {i : Instr} (e : Effect s i t) :
    t.blen = s.blen ∨ (∃ a, i = .serd a) ∨ i = .sera ∨ i = .sere ∨ ∃ x, i = .setblen x := by
  cases e with
  | serd a => exact .inr (.inl ⟨a, rfl⟩)
  | sera => exact .inr (.inr (.inl rfl))
  | sere => exact .inr (.inr (.inr (.inl rfl)))
  | setblen x => exact .inr (.inr (.inr (.inr ⟨x, rfl⟩)))
  | _ => exact .inl rfl

/-- R33: the body of `A`. -/
theorem Effect.apiBody_writers {s t : State} {i : Instr} (e : Effect s i t) :
    t.apiBody = s.apiBody ∨ (∃ x v, i = .awr x v) ∨ i = .desa := by
  cases e with
  | awr x v => exact .inr (.inl ⟨x, v, rfl⟩)
  | desa => exact .inr (.inr rfl)
  | _ => exact .inl rfl

/-- R33: the body of `E`. -/
theorem Effect.errBody_writers {s t : State} {i : Instr} (e : Effect s i t) :
    t.errBody = s.errBody ∨ (∃ x v, i = .ewr x v) ∨ i = .dese := by
  cases e with
  | ewr x v => exact .inr (.inl ⟨x, v, rfl⟩)
  | dese => exact .inr (.inr rfl)
  | _ => exact .inl rfl

/-- No command writes the parameters or the host's list (R7, R38, R39). -/
theorem Effect.cfg_host {s t : State} {i : Instr} (e : Effect s i t) :
    t.cfg = s.cfg ∧ t.host = s.host := by
  cases e <;> exact ⟨rfl, rfl⟩

/-- Settles O58: one lemma per register, from what a command can do. -/
theorem registersHaveOnlyTheirWriters : Obligations.RegistersHaveOnlyTheirWriters := by
  intro i s t hexec
  have e := exec_effect hexec
  refine ⟨fun h => e.rules_writers.resolve_left (not_and_or.mpr h),
    fun h => e.buf_writers.resolve_left fun hbuf => ?_, e.blen_writers.resolve_left,
    e.apiBody_writers.resolve_left, e.errBody_writers.resolve_left, e.cfg_host⟩
  rcases h with h | ⟨x, hx⟩
  · exact h hbuf
  · exact hx (by rw [hbuf])

end Sys2Proof.Machine
end

section
/-! Encoding and decoding (spec/30_encoding.md R81 to R88): the table of formats, everything the decoder
can answer, and the rows of the opcode map. -/

namespace Sys2Proof

/-! The encoder and the four decoding forms. -/

@[simp] theorem formN_commandWord (op : Byte) (i : Instr) :
    formN (commandWord op 0 0 0) i = .ok i := by
  simp [formN]

@[simp] theorem formF_commandWord (op a : Byte) (k : Byte → Instr) :
    formF (commandWord op a 0 0) k = .ok (k a) := by
  simp [formF]

@[simp] theorem formFF_commandWord (op a b : Byte) (k : Byte → Byte → Instr) :
    formFF (commandWord op a b 0) k = .ok (k a b) := by
  simp [formFF]

@[simp] theorem formFI_commandWord (op a c : Byte) (k : Byte → Byte → Instr) :
    formFI (commandWord op a 0 c) k = .ok (k a c) := by
  simp [formFI]

/-- The decoder finds the command's row by the opcode, and the row's form its operands. -/
theorem decode_encode (i : Instr) : decode (encode i) = .ok i := by
  cases i with
  | nop | stat | sera | sere | desa | dese | bkind | awr | ard | ewr | erd | flrem | flcnt | bufwr
  | bufrd | setblen | getblen =>
    rw [decode, encode, opField_commandWord]
    exact formN_commandWord _ _
  | dsize | setmrk | getmrk | setusr | getusr | setts | gettss | gettsn | tsval | getfmt | setid
  | getid | getdlc | isext | isrtr | isovr | fclr | getctrl | serd | desd | fltest =>
    rw [decode, encode, opField_commandWord]
    exact formF_commandWord _ _ _
  | fcopy | feq | flapp | tsadd | tssub =>
    rw [decode, encode, opField_commandWord]
    exact formFF_commandWord _ _ _ _
  | finit | setdat | getdat | setdlc | setrtr | setovr =>
    rw [decode, encode, opField_commandWord]
    exact formFI_commandWord _ _ _ _

/-- Settles O5: a case per command, by the form of its row. -/
theorem decodeOfEncodeIsIdentity : Obligations.DecodeOfEncodeIsIdentity := decode_encode

/-- Settles O8: each word is evaluated. -/
theorem exampleWordsDecode : Obligations.ExampleWordsDecode := by
  unfold Obligations.ExampleWordsDecode
  decide

/-! The formats. -/

/-- A format of R82: which fields of `CW` and which operand words it uses. -/
structure Format where
  a : Bool := false
  b : Bool := false
  c : Bool := false
  opa : Bool := false
  opb : Bool := false

/-- R82's column "commands": the format of an opcode, `none` where the opcode is unknown (R84). -/
def formatOf : Byte → Option Format
  -- N
  | 0x00#8 | 0x01#8 | 0x31#8 | 0x32#8 | 0x35#8 | 0x36#8 | 0x38#8 | 0x42#8 | 0x63#8 => some {}
  -- F
  | 0x11#8 | 0x15#8 | 0x17#8 | 0x19#8 | 0x1A#8 | 0x1B#8 | 0x1E#8 | 0x21#8 | 0x23#8 | 0x24#8
  | 0x25#8 | 0x26#8 | 0x29#8 | 0x2A#8 | 0x30#8 | 0x34#8 | 0x43#8 => some { a := true }
  -- FF
  | 0x1C#8 | 0x1D#8 | 0x50#8 | 0x51#8 => some { a := true, b := true }
  -- FI
  | 0x13#8 | 0x22#8 | 0x27#8 | 0x28#8 => some { a := true, c := true }
  -- FIA
  | 0x10#8 | 0x12#8 => some { a := true, c := true, opa := true }
  -- FA
  | 0x14#8 | 0x16#8 | 0x20#8 => some { a := true, opa := true }
  -- FAB
  | 0x18#8 => some { a := true, opa := true, opb := true }
  -- R
  | 0x40#8 => some { a := true, b := true, opa := true, opb := true }
  -- A
  | 0x3A#8 | 0x3C#8 | 0x41#8 | 0x61#8 | 0x62#8 => some { opa := true }
  -- AB
  | 0x39#8 | 0x3B#8 | 0x60#8 => some { opa := true, opb := true }
  | _ => none

/-- R82's column "must be zero": every field of `CW` the format does not use is zero. -/
def Format.UnusedZero (f : Format) (cw : Word) : Prop :=
  (f.a = false → aField cw = 0) ∧ (f.b = false → bField cw = 0) ∧ (f.c = false → cField cw = 0)

/-- The command word with this opcode whose fields are those of `cw` where the format uses them, else 0. -/
def Format.word (f : Format) (op : Byte) (cw : Word) : Word :=
  commandWord op (if f.a then aField cw else 0) (if f.b then bField cw else 0)
    (if f.c then cField cw else 0)

/-- The beat with 0 in the operand words the format does not use (R88). -/
def Format.clean (f : Format) (b : Beat) : Beat :=
  ⟨b.cw, if f.opa then b.opa else 0, if f.opb then b.opb else 0⟩

/-- A word whose unused fields are zero is made of its used fields. -/
theorem Format.word_of_unusedZero {f : Format} {cw : Word} (h : f.UnusedZero cw) :
    f.word (opField cw) cw = cw := by
  obtain ⟨ha, hb, hc⟩ := h
  have field (used : Bool) (x : Byte) (hx : used = false → x = 0) :
      (if used then x else 0) = x := by
    cases used with
    | false => exact (hx rfl).symm
    | true => rfl
  rw [Format.word, field _ _ ha, field _ _ hb, field _ _ hc, commandWord_fields]

/-! Everything the decoder can answer. -/

/-- The answers of the decoder: an unknown opcode, an unused field that is not zero, or the command
whose encoding is the beat without its unused operand words. -/
inductive DecodeCase (b : Beat) : Except Reject Instr → Prop
  | unknown (h : formatOf (opField b.cw) = none) : DecodeCase b (.error .unknownOpcode)
  | reserved (f) (hf : formatOf (opField b.cw) = some f) (hz : ¬ f.UnusedZero b.cw) :
      DecodeCase b (.error .reservedField)
  | ok (f i) (hf : formatOf (opField b.cw) = some f) (hz : f.UnusedZero b.cw)
      (he : encode i = f.clean b) : DecodeCase b (.ok i)

/-- A row that checks the unused fields and answers the command made of the used ones. -/
theorem DecodeCase.of_check {b : Beat} {op : Byte} {f : Format} {i : Instr} {p : Prop} [Decidable p]
    (hop : opField b.cw = op) (hf : formatOf op = some f) (hp : p ↔ f.UnusedZero b.cw)
    (he : encode i = f.clean ⟨f.word op b.cw, b.opa, b.opb⟩) :
    DecodeCase b (if p then .ok i else .error .reservedField) := by
  subst hop
  split
  next h =>
    have hz := hp.mp h
    rw [Format.word_of_unusedZero hz] at he
    exact .ok f i hf hz he
  next h => exact .reserved f hf (mt hp.mpr h)

/-- Every answer of the decoder is one of these. -/
theorem decode_case (b : Beat) : DecodeCase b (decode b) := by
  unfold decode
  simp only [formN, formF, formFF, formFI]
  split
  case h_50 =>
    exact .unknown (by simp [formatOf, *])
  all_goals
    next hop => exact .of_check hop rfl (by simp [Format.UnusedZero]) rfl

/-- A beat that decodes has a known opcode, zero in the unused fields, and is what its command encodes
to but for the unused operand words. -/
theorem decode_ok {b : Beat} {i : Instr} (h : decode b = .ok i) :
    ∃ f, formatOf (opField b.cw) = some f ∧ f.UnusedZero b.cw ∧ encode i = f.clean b := by
  have hcase := decode_case b
  rw [h] at hcase
  cases hcase with
  | ok f _ hf hz he => exact ⟨f, hf, hz, he⟩

/-- The beats that decode: a known opcode (R84) and zero in the unused fields (R85). -/
theorem decode_ok_iff (b : Beat) :
    (∃ i, decode b = .ok i) ↔ ∃ f, formatOf (opField b.cw) = some f ∧ f.UnusedZero b.cw := by
  constructor
  · rintro ⟨i, hi⟩
    obtain ⟨f, hf, hz, -⟩ := decode_ok hi
    exact ⟨f, hf, hz⟩
  · rintro ⟨f, hf, hz⟩
    have hcase := decode_case b
    generalize decode b = r at hcase ⊢
    cases hcase with
    | unknown h => simp [h] at hf
    | reserved g hg hng => exact absurd (Option.some.inj (hf.symm.trans hg) ▸ hz) hng
    | ok _ i => exact ⟨i, rfl⟩

/-- Settles O6: a beat that decodes has the word its command encodes to. -/
theorem decodedWordIsItsEncoding : Obligations.DecodedWordIsItsEncoding := by
  intro b i h
  obtain ⟨f, -, -, he⟩ := decode_ok h
  rw [he, Format.clean]

/-! Operand words. -/

/-- No two commands have one encoding. -/
theorem encode_injective : Function.Injective encode := by
  intro i j h
  have hdec : decode (encode i) = decode (encode j) := by rw [h]
  rw [decode_encode, decode_encode] at hdec
  exact Except.ok.inj hdec

/-- A beat has one answer. -/
theorem DecodeCase.unique {b : Beat} {r r' : Except Reject Instr} (h : DecodeCase b r)
    (h' : DecodeCase b r') : r = r' := by
  cases h with
  | unknown hnone =>
    cases h' with
    | unknown => rfl
    | reserved _ hf | ok _ _ hf => simp [hnone] at hf
  | reserved f hf hz =>
    cases h' with
    | unknown hnone => simp [hnone] at hf
    | reserved => rfl
    | ok g _ hg hzg => exact absurd (Option.some.inj (hg.symm.trans hf) ▸ hzg) hz
  | ok f i hf hz he =>
    cases h' with
    | unknown hnone => simp [hnone] at hf
    | reserved g hg hng => exact absurd (Option.some.inj (hf.symm.trans hg) ▸ hz) hng
    | ok g j hg _ hej =>
      obtain rfl := Option.some.inj (hf.symm.trans hg)
      rw [encode_injective (he.trans hej.symm)]

/-- The answer depends on the command word and on the operand words that the format uses. -/
theorem DecodeCase.congr {b b' : Beat} {r : Except Reject Instr} (h : DecodeCase b r)
    (hcw : b.cw = b'.cw)
    (hclean : ∀ f, formatOf (opField b.cw) = some f → f.clean b = f.clean b') :
    DecodeCase b' r := by
  cases h with
  | unknown hnone => exact .unknown (hcw ▸ hnone)
  | reserved f hf hz => exact .reserved f (hcw ▸ hf) (hcw ▸ hz)
  | ok f i hf hz he => exact .ok f i (hcw ▸ hf) (hcw ▸ hz) (he.trans (hclean f hf))

/-- The decoder sees the command word and the operand words its format uses, nothing else (R88). -/
theorem decode_congr {b b' : Beat} (hcw : b.cw = b'.cw)
    (hclean : ∀ f, formatOf (opField b.cw) = some f → f.clean b = f.clean b') :
    decode b = decode b' :=
  ((decode_case b).congr hcw hclean).unique (decode_case b')

/-- The opcodes of the formats FIA, FA and A, which use `OPA` and not `OPB` (R82). -/
def opaOpcodes : List Byte := [0x10, 0x12, 0x14, 0x16, 0x20, 0x41, 0x61, 0x62, 0x3A, 0x3C]

/-- The opcodes of the formats FAB, R and AB, which use both operand words (R82). -/
def opaOpbOpcodes : List Byte := [0x18, 0x40, 0x60, 0x39, 0x3B]

/-- The operand words that the format of an opcode uses, in terms of the two lists. -/
theorem formatOf_operands {op : Byte} {f : Format} (h : formatOf op = some f) :
    (f.opb = true → op ∈ opaOpbOpcodes) ∧
      (f.opa = true → op ∈ opaOpcodes ∨ op ∈ opaOpbOpcodes) := by
  have table : ∀ op : Byte, ∀ f ∈ formatOf op, (f.opb = true → op ∈ opaOpbOpcodes) ∧
      (f.opa = true → op ∈ opaOpcodes ∨ op ∈ opaOpbOpcodes) := by decide
  exact table op f h

/-- The format of an opcode outside the second list does not use `OPB`. -/
theorem opb_eq_false {op : Byte} {f : Format} (h : formatOf op = some f)
    (hop : op ∉ opaOpbOpcodes) : f.opb = false :=
  Bool.eq_false_iff.mpr fun huse => hop ((formatOf_operands h).1 huse)

/-- The format of an opcode outside both lists does not use `OPA`. -/
theorem opa_eq_false {op : Byte} {f : Format} (h : formatOf op = some f)
    (hopa : op ∉ opaOpcodes) (hop : op ∉ opaOpbOpcodes) : f.opa = false :=
  Bool.eq_false_iff.mpr fun huse => ((formatOf_operands h).2 huse).elim hopa hop

/-- The two lists have no opcode in common. -/
theorem opaOpcodes_disjoint : ∀ op ∈ opaOpcodes, op ∉ opaOpbOpcodes := by decide

/-- An encoding has 0 in the operand words its format does not use. -/
theorem encode_eq_clean (i : Instr) :
    ∃ f, formatOf (opField (encode i).cw) = some f ∧ encode i = f.clean (encode i) := by
  obtain ⟨f, hf, -, he⟩ := decode_ok (decode_encode i)
  exact ⟨f, hf, he⟩

/-- Settles O7: the format of an opcode says which operand words are looked at. -/
theorem unusedOperandWordsIgnored : Obligations.UnusedOperandWordsIgnored := by
  intro cw x y x' y' usesOpa usesBoth
  refine ⟨fun hop => decode_congr rfl fun f hf => ?_,
    fun hopa hop => decode_congr rfl fun f hf => ?_, fun i => ?_⟩
  · have hopb := opb_eq_false hf (opaOpcodes_disjoint _ hop)
    simp only [Format.clean, hopb, Bool.false_eq_true, if_false]
  · have hnoa := opa_eq_false hf hopa hop
    have hnob := opb_eq_false hf hop
    simp only [Format.clean, hnoa, hnob, Bool.false_eq_true, if_false]
  · obtain ⟨f, hf, he⟩ := encode_eq_clean i
    refine ⟨fun hop => ?_, fun hopa hop => ?_⟩
    · have hnob := opb_eq_false hf hop
      rw [he, Format.clean, hnob, if_neg Bool.false_ne_true]
    · have hnoa := opa_eq_false hf hopa hop
      rw [he, Format.clean, hnoa, if_neg Bool.false_ne_true]

/-! The rows of the opcode map. -/

/-- R82's column "CW mask": the opcode and the fields the format does not use. -/
def Format.mask (f : Format) : Word :=
  commandWord 0xFF (if f.a then 0 else 0xFF) (if f.b then 0 else 0xFF) (if f.c then 0 else 0xFF)

/-- The row of an opcode: its `match` and the mask of its format. -/
def Format.row (f : Format) (op : Byte) : Word × Word := (commandWord op 0 0 0, f.mask)

/-- The opcode map of R87 has a row for each known opcode, in rising order. -/
theorem opcodeMap_eq : opcodeMap = (List.range 256).filterMap fun n =>
    (formatOf (BitVec.ofNat 8 n)).map (Format.row · (BitVec.ofNat 8 n)) := by decide

/-- The rows of the opcode map. -/
theorem mem_opcodeMap {r : Word × Word} :
    r ∈ opcodeMap ↔ ∃ op f, formatOf op = some f ∧ f.row op = r := by
  rw [opcodeMap_eq]
  simp only [List.mem_filterMap, List.mem_range, Option.map_eq_some_iff]
  constructor
  · rintro ⟨n, -, f, hf, hr⟩
    exact ⟨_, f, hf, hr⟩
  · rintro ⟨op, f, hf, hr⟩
    exact ⟨op.toNat, op.isLt, f, by simpa using hf, by simpa using hr⟩

/-- A word selects the row of an opcode exactly when it has that opcode and zero in the unused fields. -/
theorem Format.selects_row_iff (f : Format) (op : Byte) (cw : Word) :
    cw &&& (f.row op).2 = (f.row op).1 ↔ opField cw = op ∧ f.UnusedZero cw := by
  have field (used : Bool) (x : Byte) :
      x &&& (if used then 0 else 0xFF) = 0 ↔ (used = false → x = 0) := by
    have hff : x &&& 0xFF = x := by revert x; decide
    cases used with
    | false => rw [if_neg Bool.false_ne_true, hff, forall_prop_of_true rfl]
    | true => simp
  rw [Format.row, Format.mask, selects_iff, field, field, field, Format.UnusedZero]

/-- A word selects a row exactly when its opcode is known and its unused fields are zero. -/
theorem selects_opcodeMap_iff (cw : Word) :
    (∃ r ∈ opcodeMap, cw &&& r.2 = r.1) ↔
      ∃ f, formatOf (opField cw) = some f ∧ f.UnusedZero cw := by
  constructor
  · rintro ⟨r, hr, hsel⟩
    obtain ⟨op, f, hf, rfl⟩ := mem_opcodeMap.mp hr
    obtain ⟨rfl, hz⟩ := (f.selects_row_iff op cw).mp hsel
    exact ⟨f, hf, hz⟩
  · rintro ⟨f, hf, hz⟩
    exact ⟨f.row (opField cw), mem_opcodeMap.mpr ⟨_, f, hf, rfl⟩,
      (f.selects_row_iff _ cw).mpr ⟨rfl, hz⟩⟩

/-- A beat decodes exactly when its word selects a row (R87). -/
theorem selects_opcodeMap_iff_decode_ok (b : Beat) :
    (∃ r ∈ opcodeMap, b.cw &&& r.2 = r.1) ↔ ∃ i, decode b = .ok i :=
  (selects_opcodeMap_iff b.cw).trans (decode_ok_iff b).symm

/-- A word that selects a row has the row's opcode. -/
theorem opField_of_selects {cw : Word} {r : Word × Word} (hr : r ∈ opcodeMap)
    (hsel : cw &&& r.2 = r.1) : opField cw = opField r.1 := by
  obtain ⟨op, f, -, rfl⟩ := mem_opcodeMap.mp hr
  rw [((f.selects_row_iff op cw).mp hsel).1, Format.row, opField_commandWord]

/-- No two rows have one opcode. -/
theorem opcodeMap_opField_nodup : (opcodeMap.map fun r => opField r.1).Nodup := by decide

/-- A word selects at most one row (R87). -/
theorem selects_opcodeMap_unique {cw : Word} {j k : Nat} (hj : j < opcodeMap.length)
    (hk : k < opcodeMap.length) (hselj : cw &&& opcodeMap[j].2 = opcodeMap[j].1)
    (hselk : cw &&& opcodeMap[k].2 = opcodeMap[k].1) : j = k := by
  have hop : opField opcodeMap[j].1 = opField opcodeMap[k].1 := by
    rw [← opField_of_selects (List.getElem_mem hj) hselj,
      ← opField_of_selects (List.getElem_mem hk) hselk]
  refine (opcodeMap_opField_nodup.getElem_inj_iff (hi := by simpa using hj)
    (hj := by simpa using hk)).mp ?_
  rw [List.getElem_map, List.getElem_map, hop]

/-- Settles O3: the opcode tells the rows apart, and the decoder and the map agree on the formats. -/
theorem opcodeRowsDisjointAndDecoded : Obligations.OpcodeRowsDisjointAndDecoded := by
  have hlen : opcodeMap.length = 49 := rfl
  refine ⟨hlen, fun cw j k hj hk => ?_, selects_opcodeMap_iff_decode_ok⟩
  have hjlt : j.val < opcodeMap.length := Nat.lt_of_lt_of_eq j.isLt hlen.symm
  have hklt : k.val < opcodeMap.length := Nat.lt_of_lt_of_eq k.isLt hlen.symm
  rw [List.getD_eq_getElem _ _ hjlt] at hj
  rw [List.getD_eq_getElem _ _ hklt] at hk
  exact Fin.ext (selects_opcodeMap_unique hjlt hklt hj hk)

end Sys2Proof
end

section
/-! Refusals and progress (spec/30_encoding.md R80, R84, R86, R90, R93, R94; spec/60_exceptions.md R231,
R236): what an illegal beat and a refused command do, and that every step answers. -/

namespace Sys2Proof.Machine

/-! Illegal beats. -/

/-- Settles O2: a word that selects no row does not decode, and the beat is answered by `illegal()`. -/
theorem unselectedBeatIsIllegal : Obligations.UnselectedBeatIsIllegal := by
  intro s b rest hhost hnone
  cases hdecode : decode b with
  | error e =>
    rw [step_of_beat hhost, serveBeat_of_decode_error hdecode, State.illegal_eq]
  | ok i =>
    obtain ⟨r, hr, hsel⟩ := (selects_opcodeMap_iff_decode_ok b).mpr ⟨i, hdecode⟩
    exact absurd hsel (hnone r hr)

/-- One of two frame indices out of range: `illegal()` (R86, R234). -/
theorem State.withFrames_of_not_lt (s : State) (a b : Byte) (k : Frame → Frame → Result)
    (h : ¬ (a.toNat < s.cfg.nframe ∧ b.toNat < s.cfg.nframe)) :
    s.withFrames a b k = .next { s with status := s.status ||| 1, rsp := some ⟨false, 0⟩ } := by
  unfold State.withFrames
  by_cases ha : a.toNat < s.cfg.nframe
  · rw [s.withFrame_of_lt a _ ha]
    exact s.withFrame_of_not_lt b _ fun hb => h ⟨ha, hb⟩
  · exact s.withFrame_of_not_lt a _ ha

/-- Settles O4: the index check comes first in every command that has a frame index. -/
theorem frameIndexOutOfRangeIsIllegal : Obligations.FrameIndexOutOfRangeIsIllegal := by
  intro i s h
  cases i with
  | nop | stat | sera | sere | desa | dese | bkind | awr | ard | ewr | erd | flapp | flrem | flcnt
  | bufwr | bufrd | setblen | getblen => exact absurd (wellFormed_of_none rfl) h
  | finit a | dsize a | setdat a | getdat a | setmrk a | getmrk a | setusr a | getusr a | setts a
  | gettss a | gettsn a | tsval a | getfmt a | setid a | getid a | setdlc a | getdlc a | isext a
  | isrtr a | isovr a | setrtr a | setovr a | fclr a | getctrl a | serd a | desd a | fltest a =>
    have ha : ¬ a.toNat < s.cfg.nframe := mt (wellFormed_one rfl).mpr h
    simp only [exec, execFinit, execDsize, execSetdat, execGetdat, execSetmrk, execGetmrk, execSetusr,
      execGetusr, execSetts, execGettss, execGettsn, execTsval, execGetfmt, execSetid, execGetid,
      execSetdlc, execGetdlc, execIsext, execIsrtr, execIsovr, execSetrtr, execSetovr, execFclr,
      execGetctrl, execSerd, execDesd, execFltest, State.readFrame, State.updateFrame,
      s.withFrame_of_not_lt a _ ha]
  | fcopy a b | feq a b | tsadd a b | tssub a b =>
    have hab : ¬ (a.toNat < s.cfg.nframe ∧ b.toNat < s.cfg.nframe) := mt (wellFormed_two rfl).mpr h
    simp only [exec, execFcopy, execFeq, execTsadd, execTssub, s.withFrames_of_not_lt a b _ hab]

/-! Refused commands. -/

/-- The effects with the answer `OK = 0`: a value failure and an illegal frame index (R90). -/
theorem Effect.of_refused {s t : State} {i : Instr} {rv : Word} (e : Effect s i t)
    (h : t.rsp = some ⟨false, rv⟩) :
    (i.WellFormed s.cfg ∧ t = s.respond false 0) ∨
      (¬ i.WellFormed s.cfg ∧ t = { s with status := s.status ||| 1, rsp := some ⟨false, 0⟩ }) := by
  cases e with
  | ill _ hwf => exact .inr ⟨hwf, rfl⟩
  | fail _ hwf => exact .inl ⟨hwf, rfl⟩
  | _ => cases h

/-- Settles O55: of the effects of a command only these two answer `OK = 0`. -/
theorem refusedCommandChangesNothing : Obligations.RefusedCommandChangesNothing := by
  intro i s t rv hexec hrsp
  rcases (exec_effect hexec).of_refused hrsp with ⟨hwf, rfl⟩ | ⟨hwf, rfl⟩
  · cases hrsp
    exact ⟨rfl, fun _ => rfl, fun hn => absurd hwf hn⟩
  · cases hrsp
    exact ⟨rfl, fun hy => absurd hy hwf, fun _ => rfl⟩

/-! Progress. -/

/-- Under the invariants every step answers a next state. -/
theorem step_total {s : State} (h : s.Inv) : ∃ t, step s = .next t := by
  match hs : s.host with
  | [] => exact ⟨_, step_of_host_nil hs⟩
  | .rst _ :: _ => exact ⟨_, step_of_rst hs⟩
  | .beat b :: rest =>
    rw [step_of_beat hs]
    match hd : decode b with
    | .error _ => exact ⟨_, serveBeat_of_decode_error hd _⟩
    | .ok i =>
      rw [serveBeat_of_decode_ok hd]
      exact exec_total i _ (h.withPort rest s.rsp)

/-- Every command gives a response (R80). -/
theorem Effect.rsp_isSome {s t : State} {i : Instr} (e : Effect s i t) : t.rsp.isSome = true := by
  cases e <;> rfl

/-- A step takes the event it serves off the host's list and keeps the parameters. -/
theorem StepEffect.host_cfg {s t : State} (e : StepEffect s t) :
    t.host = s.host.tail ∧ t.cfg = s.cfg := by
  cases e with
  | idle h => exact ⟨by rw [serveNothing_host, h, List.tail_nil], rfl⟩
  | rst _ _ h | undecoded _ _ h => exact ⟨by rw [h]; rfl, rfl⟩
  | command _ _ _ _ h _ he =>
    obtain ⟨hcfg, hhost⟩ := he.cfg_host
    exact ⟨by rw [hhost, h, List.tail_cons], hcfg⟩

/-- A step gives a response exactly when it serves a beat (R80). -/
theorem StepEffect.rsp_isSome_iff {s t : State} (e : StepEffect s t) :
    t.rsp.isSome = true ↔ ∃ b, s.host.head? = some (.beat b) := by
  cases e with
  | idle h => simp [h]
  | rst _ _ h | undecoded _ _ h => simp [h]
  | command _ _ _ _ h _ he => simp [h, he.rsp_isSome]

/-- Settles O54: every step answers under the invariants, and each effect of a step takes one event. -/
theorem stepAlwaysAnswers : Obligations.StepAlwaysAnswers := by
  intro s h
  obtain ⟨t, ht⟩ := step_total h
  have e := step_effect ht
  obtain ⟨hhost, hcfg⟩ := e.host_cfg
  exact ⟨t, ht, hhost, hcfg, e.rsp_isSome_iff⟩

/-! A host that chooses its beats. -/

/-- A beat on the port of a state that meets the invariants is answered by one response, and the host's
list and the invariants are as before. -/
theorem transact_answers (b : Beat) {s : State} (h : s.Inv) :
    ∃ t r, transact b s = .next t ∧ t.rsp = some r ∧ t.host = s.host ∧ t.Inv := by
  have hoffer : (s.offer b).Inv := h.withPort _ s.rsp
  obtain ⟨t, ht, hhost, -, hrsp⟩ := stepAlwaysAnswers _ hoffer
  obtain ⟨r, hr⟩ := Option.isSome_iff_exists.mp (hrsp.mpr ⟨b, rfl⟩)
  exact ⟨t, r, ht, hr, hhost, stepKeepsInvariants _ _ hoffer ht⟩

/-- A host with no beat left has ended its run. -/
theorem runHost_of_none {choose : List Response → Option Beat} {past : List Response}
    (h : choose past = none) (n : Nat) (s : State) : runHost choose n past s = .next (s, past) := by
  cases n with
  | zero => rfl
  | succ n => rw [runHost, h]

/-- A host with a beat goes on with the answer to it. -/
theorem runHost_succ_of_some {choose : List Response → Option Beat} {past : List Response}
    {b : Beat} {s t : State} {r : Response} (h : choose past = some b)
    (ht : transact b s = .next t) (hr : t.rsp = some r) (n : Nat) :
    runHost choose (n + 1) past s = runHost choose n (past ++ [r]) t := by
  simp only [runHost, h, ht, hr, Option.toList_some]

/-- Settles O60: by induction on the bound, each beat by `transact_answers`. -/
theorem everyHostIsAnswered : Obligations.EveryHostIsAnswered := by
  intro choose n
  induction n with
  | zero =>
    intro past s h
    exact ⟨s, past, rfl, h, rfl, ⟨[], List.append_nil past⟩, Nat.le_refl _, fun _ => rfl⟩
  | succ n ih =>
    intro past s h
    cases hc : choose past with
    | none =>
      refine ⟨s, past, runHost_of_none hc _ s, h, rfl, ⟨[], List.append_nil past⟩, by omega,
        fun hall => ?_⟩
      simpa [hc] using hall past
    | some b =>
      obtain ⟨t, r, ht, hr, hhost, hinv⟩ := transact_answers b h
      obtain ⟨u, all, hrun, huinv, huhost, hpast, hle, hall⟩ := ih (past ++ [r]) t hinv
      rw [← runHost_succ_of_some hc ht hr] at hrun
      rw [List.length_append, List.length_singleton] at hle hall
      have hfirst : past <+: past ++ [r] := ⟨[r], rfl⟩
      exact ⟨u, all, hrun, huinv, huhost.trans hhost, hfirst.trans hpast, by omega,
        fun hq => by have := hall hq; omega⟩

end Sys2Proof.Machine
end

section
/-! The decoder on a beat given by the fields of its command word, for every value of the operand words
(spec/30_encoding.md R82, R88). -/

namespace Sys2Proof

/-- The operand words that a format does not use are zeroed once. -/
@[simp] theorem Format.clean_clean (f : Format) (b : Beat) : f.clean (f.clean b) = f.clean b := by
  simp +contextual [Format.clean]

/-- A beat decodes to the command that encodes to it, but for the operand words that the format does
not use. -/
theorem decode_of_encode {op a b c : Byte} {x y : Word} {i : Instr} {f : Format}
    (hf : formatOf op = some f) (he : encode i = f.clean ⟨commandWord op a b c, x, y⟩) :
    decode ⟨commandWord op a b c, x, y⟩ = .ok i := by
  rw [← decode_encode i, he]
  refine decode_congr rfl fun g hg => ?_
  rw [opField_commandWord, hf] at hg
  obtain rfl := Option.some.inj hg
  rw [Format.clean_clean]

end Sys2Proof
end

section
/-! The frame model commands (spec/40_frame_model.md R111 to R127, R151): what a write of one register
does, what the fields of a control byte, a payload and a timestamp are, and from these a statement per
command. -/

namespace Sys2Proof.Machine

/-! Writes of one register. -/

/-- A command that comes down to writing register `F[a]` answers 0 and changes nothing else. -/
theorem State.HasFrame.write {s : State} {a : Byte} {f : Frame} {r : Result} (h : s.HasFrame a)
    (hr : r = (s.setFrame a f).done 0) :
    ∃ t, r = .next t ∧ t.rsp = some ⟨true, 0⟩ ∧ s.OnlyFrame t a ∧ t.frame a = f :=
  ⟨_, hr, rfl, s.onlyFrame_setFrame a f _ _, s.frame_setFrame_self a f h⟩

/-- Writing to a register what it holds changes no register. -/
theorem State.setFrame_frame_frames (s : State) (a : Byte) :
    (s.setFrame a (s.frame a)).frames = s.frames := by
  rw [State.setFrame_frames, State.frame]
  by_cases ha : a.toNat < s.frames.length
  · rw [List.getD_eq_getElem _ _ ha, List.set_getElem_self]
  · exact List.set_eq_of_length_le (Nat.not_lt.mp ha)

/-- Writing one register leaves the parameters. -/
theorem State.OnlyFrame.cfg_eq {s t : State} {a : Byte} (h : s.OnlyFrame t a) : t.cfg = s.cfg :=
  (congrArg State.cfg h.1 :)

/-! Truth values. -/

/-- A predicate answers 0 or 1 (R90). -/
theorem boolWord_eq_zero_or_one (b : Bool) : boolWord b = 0 ∨ boolWord b = 1 := by
  cases b with
  | false => exact .inl rfl
  | true => exact .inr rfl

/-- A predicate answers 1 exactly when it holds (R90). -/
theorem boolWord_eq_one_iff (b : Bool) : boolWord b = 1 ↔ b = true := by
  cases b <;> decide

/-! The control byte and the resolved size. -/

/-- The bits of the format code are the two low bits of the control byte (R22, R23). -/
theorem ctrlFmt_getLsbD (c : Byte) {k : Nat} (hk : k < 2) :
    (ctrlFmt c).getLsbD k = c.getLsbD k := by
  simp [ctrlFmt, hk]

/-- The format code is the control byte modulo 4 (R127). -/
theorem ctrlFmt_toNat (c : Byte) : (ctrlFmt c).toNat = c.toNat % 4 := by
  simp [ctrlFmt]

/-- The resolved size of a classic frame (R112). -/
theorem Frame.size_of_classic {f : Frame} (h : f.ctrl.getLsbD 1 = false) :
    f.size = min f.dlc.toNat 8 := by
  rw [← ctrlFmt_getLsbD f.ctrl Nat.one_lt_two] at h
  rw [Frame.size, dataSize, Frame.fmt, h, if_neg Bool.false_ne_true]

/-- The resolved size of an FD frame (R112). -/
theorem Frame.size_of_fd {f : Frame} (h : f.ctrl.getLsbD 1 = true) :
    f.size = fdTable.getD f.dlc.toNat 0 := by
  rw [← ctrlFmt_getLsbD f.ctrl Nat.one_lt_two] at h
  rw [Frame.size, dataSize, Frame.fmt, h, if_pos rfl]

/-! Fresh frames. -/

/-- The control byte of a fresh frame is the legal format code itself (R111). -/
theorem ctrlOfFmt_immFmt {imm : Byte} (h : imm.toNat ≤ 3) : ctrlOfFmt (immFmt imm) = imm := by
  apply BitVec.eq_of_toNat_eq
  rw [ctrlOfFmt, immFmt, BitVec.toNat_setWidth, BitVec.extractLsb'_toNat, Nat.shiftRight_zero]
  omega

/-- The identifier mask that an immediate format code selects (R24). -/
theorem idMask_immFmt (imm : Byte) :
    idMask (immFmt imm) = if imm.getLsbD 0 then 0x1FFFFFFF else 0x7FF := by
  have hbit : (immFmt imm).getLsbD 0 = imm.getLsbD 0 := ctrlFmt_getLsbD imm Nat.zero_lt_two
  rw [idMask, hbit]

/-- The payload store of a fresh frame is zero, hidden bytes included (R111). -/
@[simp] theorem freshFrame_get (f : BitVec 2) (v : Word) (k : Fin 64) :
    (freshFrame f v).data[k] = 0 := by
  simp [freshFrame, Frame.zero]

/-- Settles O16: below the check the register becomes a fresh frame. -/
theorem finitConstructsFrame : Obligations.FinitConstructsFrame := by
  intro s a imm v w h
  refine ⟨decode_of_encode rfl rfl, fun himm => ?_, fun himm => ?_⟩
  · have hwrite : exec (.finit a imm v) s = (s.setFrame a (freshFrame (immFmt imm) v)).done 0 := by
      rw [exec, execFinit, s.withFrame_of_lt a _ h.1, if_neg (Nat.not_lt.mpr himm)]
    obtain ⟨t, hexec, hrsp, honly, hframe⟩ := h.write hwrite
    refine ⟨t, hexec, hrsp, honly, ?_⟩
    rw [hframe, ← idMask_immFmt]
    exact ⟨ctrlOfFmt_immFmt himm, rfl, rfl, freshFrame_get _ _, rfl, rfl, rfl, rfl⟩
  · rw [exec, execFinit, s.withFrame_of_lt a _ h.1, if_pos himm, State.fail_eq, State.respond]

/-! Sizes and payload bytes. -/

/-- Settles O17: the resolved size by the FD bit of the control byte. -/
theorem dsizeAnswersResolvedSize : Obligations.DsizeAnswersResolvedSize := by
  intro s a x y ha
  have hexec : exec (.dsize a) s =
      .next { s with rsp := some ⟨true, BitVec.ofNat 32 (s.frame a).size⟩ } :=
    s.readFrame_of_lt a (fun f => BitVec.ofNat 32 f.size) ha
  refine ⟨decode_of_encode rfl rfl, fun hclassic => ?_, fun hfd => ?_⟩
  · rw [hexec, Frame.size_of_classic hclassic]
  · rw [hexec, Frame.size_of_fd hfd, fdTable]

/-- Settles O18: below the resolved size one byte of the store is written. -/
theorem setdatWritesVisibleByte : Obligations.SetdatWritesVisibleByte := by
  intro s a imm v w h
  refine ⟨decode_of_encode rfl rfl, fun hvisible => ?_, fun hhidden => ?_⟩
  · have hwrite : exec (.setdat a imm v) s =
        (s.setFrame a ((s.frame a).setByte imm.toNat (lowByte v))).done 0 := by
      rw [exec, execSetdat, s.withFrame_of_lt a _ h.1, if_neg (Nat.not_le.mpr hvisible)]
    obtain ⟨t, hexec, hrsp, honly, hframe⟩ := h.write hwrite
    refine ⟨t, hexec, hrsp, honly, ?_⟩
    rw [hframe]
    exact ⟨rfl, (s.frame a).setByte_get imm.toNat (lowByte v)⟩
  · rw [exec, execSetdat, s.withFrame_of_lt a _ h.1, if_pos hhidden, State.fail_eq,
      State.respond]

/-- A byte of the store, read by its index. -/
theorem Frame.byte_val (f : Frame) (k : Fin 64) : f.byte k.val = f.data[k] := by
  simp [Frame.byte]

/-- Settles O19: below the resolved size the byte of the store is answered. -/
theorem getdatReadsVisibleByte : Obligations.GetdatReadsVisibleByte := by
  intro s a imm x y ha
  refine ⟨decode_of_encode rfl rfl, fun k hk hvisible => ?_, fun hhidden => ?_⟩
  · rw [exec, execGetdat, s.withFrame_of_lt a _ ha, if_neg (Nat.not_le.mpr hvisible), ← hk,
      Frame.byte_val, State.done_eq, State.respond, byteWord]
  · rw [exec, execGetdat, s.withFrame_of_lt a _ ha, if_pos hhidden, State.fail_eq,
      State.respond]

/-! Tags. -/

/-- Settles O20: the setters write one field of the register, the getters read it. -/
theorem markerAndUserStored : Obligations.MarkerAndUserStored := by
  intro s a v x y h
  exact ⟨decode_of_encode rfl rfl, decode_of_encode rfl rfl, decode_of_encode rfl rfl,
    decode_of_encode rfl rfl, s.updateFrame_of_hasFrame a (fun f => { f with marker := v }) h,
    s.updateFrame_of_hasFrame a (fun f => { f with user := v }) h,
    s.readFrame_of_lt a Frame.marker h.1, s.readFrame_of_lt a Frame.user h.1⟩

/-! Timestamps. -/

/-- What TSVAL answers for a legal index (R124). -/
theorem exec_tsval {s : State} {a : Byte} (ha : a.toNat < s.cfg.nframe) :
    exec (.tsval a) s =
      .next { s with rsp := some ⟨true, boolWord (tsValid s.cfg (s.frame a).ts)⟩ } :=
  s.readFrame_of_lt a (fun f => boolWord (tsValid s.cfg f.ts)) ha

/-- Settles O22: TSVAL answers R31's predicate. -/
theorem timestampReadsAnswer : Obligations.TimestampReadsAnswer := by
  intro s a x y ha
  refine ⟨decode_of_encode rfl rfl, decode_of_encode rfl rfl, decode_of_encode rfl rfl,
    s.readFrame_of_lt a (·.ts.sec) ha, s.readFrame_of_lt a (·.ts.nsec) ha, ?_⟩
  rw [exec_tsval ha, boolWord, if_congr (tsValid_iff _ _) rfl rfl]

/-- Settles O21: a capped component is at most its limit, so the timestamp is valid. -/
theorem settsCapsEachComponent : Obligations.SettsCapsEachComponent := by
  intro s a v w h
  refine ⟨decode_of_encode rfl rfl, ?_⟩
  obtain ⟨t, hexec, hrsp, honly, hframe⟩ := s.updateFrame_of_hasFrame a
    (fun f => { f with ts := ⟨capAt v s.cfg.secsLimit.toNat, capAt w nsecLimit⟩ }) h
  have hsec := capAt_toNat v s.cfg.secsLimit.toNat s.cfg.secsLimit.isLt
  have hnsec := capAt_toNat w nsecLimit (by decide)
  have hvalid : tsValid t.cfg (t.frame a).ts = true := by
    rw [tsValid_iff, hframe, honly.cfg_eq]
    exact ⟨hsec ▸ Nat.min_le_right _ _, hnsec ▸ Nat.min_le_right _ _⟩
  refine ⟨t, hexec, hrsp, honly, ?_, ?_, ?_, ?_⟩
  · rw [hframe]
  · rw [hframe, hsec]
  · rw [hframe, hnsec, nsecLimit]
  · rw [exec_tsval (honly.cfg_eq ▸ h.1), hvalid]
    rfl

/-! Whole registers. -/

/-- Settles O23: the source is written to the destination; onto itself it writes what is there. -/
theorem fcopyCopiesWholeRegister : Obligations.FcopyCopiesWholeRegister := by
  intro s a b x y ha hb
  refine ⟨decode_of_encode rfl rfl, _,
    s.withFrames_of_lt a b (fun _ g => (s.setFrame a g).done 0) ha.1 hb.1, rfl,
    s.onlyFrame_setFrame a _ _ _, s.frame_setFrame_self a _ ha, fun hab => ?_⟩
  subst hab
  exact s.setFrame_frame_frames a

/-- Two frames are equal by value when every field and the visible payload agree (R126). -/
theorem frameEq_iff (f g : Frame) :
    frameEq f g = true ↔ f.ctrl = g.ctrl ∧ f.id = g.id ∧ f.dlc = g.dlc ∧
      (∀ k : Fin 64, k.val < f.size → f.data[k] = g.data[k]) ∧ f.marker = g.marker ∧
      f.user = g.user ∧ f.ts.sec = g.ts.sec ∧ f.ts.nsec = g.ts.nsec := by
  simp only [frameEq, Bool.and_eq_true, beq_iff_eq, take_store_eq_iff, and_assoc]

/-- Settles O24: FEQ answers equality by value, which is what `frameEq_iff` says. -/
theorem feqComparesVisibleFields : Obligations.FeqComparesVisibleFields := by
  intro s a b x y ha hb
  exact ⟨decode_of_encode rfl rfl, _,
    s.withFrames_of_lt a b (fun f g => s.done (boolWord (frameEq f g))) ha hb,
    boolWord_eq_zero_or_one _, (boolWord_eq_one_iff _).trans (frameEq_iff _ _)⟩

/-- Settles O25: the format code and the control byte as 32-bit values. -/
theorem formatAndControlReads : Obligations.FormatAndControlReads := by
  intro s a x y ha
  refine ⟨decode_of_encode rfl rfl, decode_of_encode rfl rfl, ?_, ?_⟩
  · rw [← ctrlFmt_toNat, BitVec.ofNat_toNat]
    exact s.readFrame_of_lt a (·.fmt.setWidth 32) ha
  · rw [BitVec.ofNat_toNat]
    exact s.readFrame_of_lt a (byteWord ·.ctrl) ha

end Sys2Proof.Machine
end

section
/-! The bit-layout codec commands (spec/41_bit_codec.md R141 to R150): the identifier, the DLC code, the
flags, and the cleared register. -/

namespace Sys2Proof.Machine

/-! The identifier and the DLC code. -/

/-- The identifier mask of a register is chosen by bit 0 of its control byte (R22, R24). -/
theorem Frame.idMask_fmt (f : Frame) :
    idMask f.fmt = if f.ctrl.getLsbD 0 then 0x1FFFFFFF else 0x7FF := by
  rw [idMask, Frame.fmt, ctrlFmt_getLsbD f.ctrl Nat.zero_lt_two]

/-- Settles O26: the register's own format chooses the mask. -/
theorem setidMasksToFormat : Obligations.SetidMasksToFormat := by
  intro s a v w h
  rw [← Frame.idMask_fmt]
  exact ⟨decode_of_encode rfl rfl,
    s.updateFrame_of_hasFrame a (fun f => { f with id := v &&& idMask f.fmt }) h⟩

/-- Settles O27: both are reads of one register. -/
theorem idAndDlcReads : Obligations.IdAndDlcReads := by
  intro s a x y ha
  refine ⟨decode_of_encode rfl rfl, decode_of_encode rfl rfl, s.readFrame_of_lt a Frame.id ha, ?_⟩
  rw [BitVec.ofNat_toNat]
  exact s.readFrame_of_lt a (·.dlc.setWidth 32) ha

/-- A code of at most 15 is stored as written (R143). -/
theorem immDlc_toNat {imm : Byte} (h : imm.toNat ≤ 15) : (immDlc imm).toNat = imm.toNat := by
  rw [immDlc, BitVec.extractLsb'_toNat, Nat.shiftRight_zero]
  omega

/-- Settles O28: below the check the code alone is written. -/
theorem setdlcStoresAsWritten : Obligations.SetdlcStoresAsWritten := by
  intro s a imm x y h
  refine ⟨decode_of_encode rfl rfl, fun himm => ?_, fun himm => ?_⟩
  · have hwrite : exec (.setdlc a imm) s =
        (s.setFrame a { s.frame a with dlc := immDlc imm }).done 0 := by
      rw [exec, execSetdlc, s.withFrame_of_lt a _ h.1, if_neg (Nat.not_lt.mpr himm)]
    obtain ⟨t, hexec, hrsp, honly, hframe⟩ := h.write hwrite
    refine ⟨t, hexec, hrsp, honly, ?_⟩
    rw [hframe]
    exact ⟨rfl, immDlc_toNat himm⟩
  · rw [exec, execSetdlc, s.withFrame_of_lt a _ h.1, if_pos himm, State.fail_eq, State.respond]

/-! The flags. -/

/-- A bit of a control byte as a 32-bit value is 1 exactly when the bit is set (R145 to R147). -/
theorem ctrlBit_eq (c : Byte) (k : Nat) : ctrlBit c k = if c.getLsbD k then 1 else 0 := by
  have hbit : c.extractLsb' k 1 = BitVec.ofBool (c.getLsbD k) :=
    BitVec.eq_of_getLsbD_eq fun i hi => by simp [Nat.lt_one_iff.mp hi]
  rw [ctrlBit, hbit]
  cases c.getLsbD k <;> rfl

/-- Settles O29: each is a read of one bit of the control byte. -/
theorem flagReadsAnswerControlBits : Obligations.FlagReadsAnswerControlBits := by
  intro s a x y ha
  simp only [← ctrlBit_eq]
  exact ⟨decode_of_encode rfl rfl, decode_of_encode rfl rfl, decode_of_encode rfl rfl,
    s.readFrame_of_lt a (ctrlBit ·.ctrl 0) ha, s.readFrame_of_lt a (ctrlBit ·.ctrl rtrBit) ha,
    s.readFrame_of_lt a (ctrlBit ·.ctrl ovrBit) ha⟩

/-- A frame with bit `j` of the control byte written. -/
def Frame.setCtrlBit (f : Frame) (j : Nat) (v : BitVec 1) : Frame :=
  { f with ctrl := ctrlSetBit f.ctrl j v }

/-- SETRTR and SETOVR differ in the bit `j` of the control byte that they write (R148, R149). -/
def execSetCtrlBit (j : Nat) (a imm : Byte) (s : State) : Result :=
  s.withFrame a fun f =>
    if 1 < imm.toNat then s.fail else (s.setFrame a (f.setCtrlBit j (immFlag imm))).done 0

theorem exec_setrtr (a imm : Byte) (s : State) :
    exec (.setrtr a imm) s = execSetCtrlBit rtrBit a imm s := rfl

theorem exec_setovr (a imm : Byte) (s : State) :
    exec (.setovr a imm) s = execSetCtrlBit ovrBit a imm s := rfl

/-- An operand 0 or 1 is written to one bit of the control byte (R148, R149). -/
theorem execSetCtrlBit_of_le {s : State} {a imm : Byte} {j : Nat} (hj : j < 8) (h : s.HasFrame a)
    (himm : imm.toNat ≤ 1) :
    ∃ t, execSetCtrlBit j a imm s = .next t ∧ t.rsp = some ⟨true, 0⟩ ∧ s.OnlyFrame t a ∧
      t.frame a = { s.frame a with ctrl := (t.frame a).ctrl } ∧
      ∀ k, (t.frame a).ctrl.getLsbD k =
        if k = j then imm.getLsbD 0 else (s.frame a).ctrl.getLsbD k := by
  have hwrite : execSetCtrlBit j a imm s =
      (s.setFrame a ((s.frame a).setCtrlBit j (immFlag imm))).done 0 := by
    rw [execSetCtrlBit, s.withFrame_of_lt a _ h.1, if_neg (Nat.not_lt.mpr himm)]
  obtain ⟨t, hexec, hrsp, honly, hframe⟩ := h.write hwrite
  have hflag : (immFlag imm).getLsbD 0 = imm.getLsbD 0 := by simp [immFlag]
  refine ⟨t, hexec, hrsp, honly, ?_⟩
  rw [hframe, ← hflag]
  exact ⟨rfl, ctrlSetBit_get _ j hj _⟩

/-- An operand above 1 is a value failure (R148, R149). -/
theorem execSetCtrlBit_of_lt {s : State} {a imm : Byte} (j : Nat) (ha : a.toNat < s.cfg.nframe)
    (himm : 1 < imm.toNat) :
    execSetCtrlBit j a imm s = .next { s with rsp := some ⟨false, 0⟩ } := by
  rw [execSetCtrlBit, s.withFrame_of_lt a _ ha, if_pos himm, State.fail_eq, State.respond]

/-- Settles O30: both commands write one bit, at position 2 and at position 3. -/
theorem flagWritesTouchOneBit : Obligations.FlagWritesTouchOneBit := by
  intro s a imm x y h
  simp only [exec_setrtr, exec_setovr]
  refine ⟨decode_of_encode rfl rfl, decode_of_encode rfl rfl, fun himm => ?_, fun himm => ?_⟩
  · exact ⟨execSetCtrlBit_of_le (j := rtrBit) (by decide) h himm,
      execSetCtrlBit_of_le (j := ovrBit) (by decide) h himm⟩
  · exact ⟨execSetCtrlBit_of_lt rtrBit h.1 himm, execSetCtrlBit_of_lt ovrBit h.1 himm⟩

/-! The cleared register. -/

/-- The control byte of a fresh frame has the bits of the format code and no other (R22, R150). -/
theorem ctrlOfFmt_ctrlFmt_getLsbD (c : Byte) (k : Nat) :
    (ctrlOfFmt (ctrlFmt c)).getLsbD k = (decide (k < 2) && c.getLsbD k) := by
  by_cases hk : k < 2
  · simp [ctrlOfFmt, ctrlFmt, hk, show k < 8 by omega]
  · simp [ctrlOfFmt, ctrlFmt, hk]

/-- The format code of a control byte, taken as an immediate (R111). -/
theorem immFmt_ctrl_mod (c : Byte) : immFmt (BitVec.ofNat 8 (c.toNat % 4)) = ctrlFmt c := by
  apply BitVec.eq_of_toNat_eq
  rw [ctrlFmt_toNat, immFmt, BitVec.extractLsb'_toNat, BitVec.toNat_ofNat, Nat.shiftRight_zero]
  omega

/-- FCLR is FINIT with the register's own format and the identifier 0 (R150). -/
theorem exec_finit_own_format (s : State) (a : Byte) :
    exec (.finit a (BitVec.ofNat 8 ((s.frame a).ctrl.toNat % 4)) 0) s = exec (.fclr a) s := by
  have hlegal : ¬ 3 < (BitVec.ofNat 8 ((s.frame a).ctrl.toNat % 4)).toNat := by
    rw [BitVec.toNat_ofNat]
    omega
  simp only [exec, execFinit, execFclr, State.updateFrame, State.withFrame, if_neg hlegal,
    immFmt_ctrl_mod, Frame.fmt]

/-- Settles O31: the register becomes a fresh frame of its own format. -/
theorem fclrKeepsOnlyFormat : Obligations.FclrKeepsOnlyFormat := by
  intro s a x y h
  obtain ⟨t, hexec, hrsp, honly, hframe⟩ :=
    s.updateFrame_of_hasFrame a (fun f => freshFrame f.fmt 0) h
  refine ⟨decode_of_encode rfl rfl, t, hexec, hrsp, honly, ?_⟩
  rw [exec_finit_own_format, hframe]
  exact ⟨ctrlOfFmt_ctrlFmt_getLsbD _, BitVec.zero_and, rfl, freshFrame_get _ _, rfl, rfl, rfl, rfl,
    hexec⟩

end Sys2Proof.Machine
end

section
/-! Setters commute (spec/41_bit_codec.md R152 (5)): what every setter of one frame register does, the
illegal index and the value failure included, and when the order of two of them does not matter. -/

namespace Sys2Proof.Machine

/-! Setters. -/

/-- A command that rewrites the register `reg`: its new content under the parameters, or `none` where
the command is a value failure (R90). -/
structure Setter where
  reg : Byte
  write : Config → Frame → Option Frame

/-- The new content of the register, or `none` where the command is refused, for its value or for its
index (R86). -/
def Setter.attempt (x : Setter) (c : Config) (f : Frame) : Option Frame :=
  if x.reg.toNat < c.nframe then x.write c f else none

/-- What is in the register after the command: a refusal leaves what was there. -/
def Setter.keep (x : Setter) (c : Config) (f : Frame) : Frame := (x.attempt c f).getD f

/-- The bits of `STATUS` that the command sets: `ILL` for an illegal index (R86, R232). -/
def Setter.ill (x : Setter) (c : Config) : Word := if x.reg.toNat < c.nframe then 0 else 1

/-- The state after the command. -/
def Setter.run (x : Setter) (s : State) : State :=
  { s with
    frames := s.frames.modify x.reg.toNat (x.keep s.cfg)
    status := s.status ||| x.ill s.cfg
    rsp := some ⟨(x.attempt s.cfg (s.frame x.reg)).isSome, 0⟩ }

/-- Writing register `F[a]` in terms of what it held. -/
theorem State.frames_set_frame (s : State) (a : Byte) (w : Frame → Frame) :
    s.frames.set a.toNat (w (s.frame a)) = s.frames.modify a.toNat w := by
  by_cases ha : a.toNat < s.frames.length
  · rw [List.modify_eq_set_getElem?, State.frame, List.getD_eq_getElem _ _ ha,
      List.getElem?_eq_getElem ha]
    rfl
  · have hle := Nat.not_lt.mp ha
    rw [List.set_eq_of_length_le hle, List.modify_eq_self hle]

/-- Any register after a setter: as before, or the setter's own and rewritten. -/
theorem Setter.frame_run (x : Setter) (s : State) (b : Byte) :
    (x.run s).frame b = s.frame b ∨
      (b = x.reg ∧ (x.run s).frame b = x.keep s.cfg (s.frame b)) := by
  by_cases hb : b = x.reg
  · subst hb
    by_cases hlt : x.reg.toNat < s.frames.length
    · exact .inr ⟨rfl, by simp [Setter.run, State.frame, hlt]⟩
    · exact .inl (by simp [Setter.run, State.frame, List.modify_eq_self (Nat.not_lt.mp hlt)])
  · have hne : x.reg.toNat ≠ b.toNat := fun h => hb (BitVec.eq_of_toNat_eq h.symm)
    exact .inl (by simp [Setter.run, State.frame, hne])

/-- What a setter does: the index check, then the value check, then the write. -/
def Setter.answer (x : Setter) (s : State) : Result :=
  s.withFrame x.reg fun f =>
    (x.write s.cfg f).elim s.fail fun g => (s.setFrame x.reg g).done 0

/-- A setter always answers, with the state `Setter.run`. -/
theorem Setter.answer_eq (x : Setter) (s : State) : x.answer s = .next (x.run s) := by
  have hframes := s.frames_set_frame x.reg (x.keep s.cfg)
  by_cases hlt : x.reg.toNat < s.cfg.nframe
  · rw [Setter.answer, s.withFrame_of_lt _ _ hlt, Setter.run, ← hframes]
    cases hw : x.write s.cfg (s.frame x.reg) with
    | none =>
      have hsame := s.setFrame_frame_frames x.reg
      rw [State.setFrame_frames] at hsame
      simp [Setter.keep, Setter.attempt, Setter.ill, hlt, hw, hsame, State.respond]
    | some g =>
      simp [Setter.keep, Setter.attempt, Setter.ill, hlt, hw, State.respond, State.setFrame]
  · have hid : x.keep s.cfg = id := funext fun f => by simp [Setter.keep, Setter.attempt, hlt]
    rw [Setter.answer, s.withFrame_of_not_lt _ _ hlt, Setter.run, hid, List.modify_id]
    simp [Setter.attempt, Setter.ill, hlt]

/-! The order of two setters. -/

/-- Whether one setter comes before the other changes neither what they write nor which of them is
refused. -/
structure Setter.Independent (x y : Setter) : Prop where
  keep : ∀ c f, y.keep c (x.keep c f) = x.keep c (y.keep c f)
  left : ∀ c f, (x.attempt c (y.keep c f)).isSome = (x.attempt c f).isSome
  right : ∀ c f, (y.attempt c (x.keep c f)).isSome = (y.attempt c f).isSome

theorem Setter.Independent.symm {x y : Setter} (h : x.Independent y) : y.Independent x :=
  ⟨fun c f => (h.keep c f).symm, h.right, h.left⟩

/-- The second setter answers as it would if it came first. -/
theorem Setter.Independent.rsp_run_run {x y : Setter} (h : x.Independent y) (s : State) :
    (y.run (x.run s)).rsp = (y.run s).rsp := by
  have hanswer : (y.attempt s.cfg ((x.run s).frame y.reg)).isSome =
      (y.attempt s.cfg (s.frame y.reg)).isSome := by
    rcases x.frame_run s y.reg with hsame | ⟨-, hkeep⟩
    · rw [hsame]
    · rw [hkeep, h.right]
  exact congrArg (fun ok => some (Response.mk ok 0)) hanswer

/-- The frame registers do not depend on the order. -/
theorem Setter.Independent.frames_run_run {x y : Setter} (h : x.Independent y) (s : State) :
    (y.run (x.run s)).frames = (x.run (y.run s)).frames := by
  show (s.frames.modify x.reg.toNat (x.keep s.cfg)).modify y.reg.toNat (y.keep s.cfg) =
    (s.frames.modify y.reg.toNat (y.keep s.cfg)).modify x.reg.toNat (x.keep s.cfg)
  by_cases hreg : x.reg.toNat = y.reg.toNat
  · rw [hreg, List.modify_modify_eq, List.modify_modify_eq]
    exact congrArg _ (funext (h.keep s.cfg))
  · exact List.modify_modify_ne _ _ _ hreg

/-- Both orders give the same state but for the response. -/
theorem Setter.Independent.run_run {x y : Setter} (h : x.Independent y) (s : State) :
    y.run (x.run s) = { x.run (y.run s) with rsp := (y.run (x.run s)).rsp } := by
  have hstatus : (y.run (x.run s)).status = (x.run (y.run s)).status := by
    show s.status ||| x.ill s.cfg ||| y.ill s.cfg = s.status ||| y.ill s.cfg ||| x.ill s.cfg
    rw [BitVec.or_assoc, BitVec.or_comm (x.ill s.cfg), BitVec.or_assoc]
  calc y.run (x.run s)
    _ = { x.run (y.run s) with
          frames := (y.run (x.run s)).frames
          status := (y.run (x.run s)).status
          rsp := (y.run (x.run s)).rsp } := rfl
    _ = { x.run (y.run s) with rsp := (y.run (x.run s)).rsp } := by
      rw [h.frames_run_run s, hstatus]

/-! The setters of the block. -/

/-- SETRTR and SETOVR: write bit `j` of the control byte (R148, R149). -/
def ctrlBitSetter (j : Nat) (a imm : Byte) : Setter :=
  ⟨a, fun _ f => if 1 < imm.toNat then none else some (f.setCtrlBit j (immFlag imm))⟩

/-- The other setters of one field of a register (R114, R116, R118, R121, R141, R143). -/
def fieldSetter : Instr → Option Setter
  | .setid a v => some ⟨a, fun _ f => some { f with id := v &&& idMask f.fmt }⟩
  | .setdlc a imm =>
    some ⟨a, fun _ f => if 15 < imm.toNat then none else some { f with dlc := immDlc imm }⟩
  | .setdat a imm v =>
    some ⟨a, fun _ f =>
      if f.size ≤ imm.toNat then none else some (f.setByte imm.toNat (lowByte v))⟩
  | .setmrk a v => some ⟨a, fun _ f => some { f with marker := v }⟩
  | .setusr a v => some ⟨a, fun _ f => some { f with user := v }⟩
  | .setts a v w =>
    some ⟨a, fun c f => some { f with ts := ⟨capAt v c.secsLimit.toNat, capAt w nsecLimit⟩ }⟩
  | _ => none

/-- A value check before a write. -/
theorem elim_ite_none {α β : Type} (p : Prop) [Decidable p] (g : α) (refuse : β) (write : α → β) :
    (if p then none else some g).elim refuse write = if p then refuse else write g := by
  split <;> rfl

/-- The meaning of SETRTR and SETOVR is that of their setter. -/
theorem execSetCtrlBit_eq_run (j : Nat) (a imm : Byte) (s : State) :
    execSetCtrlBit j a imm s = .next ((ctrlBitSetter j a imm).run s) := by
  rw [← Setter.answer_eq]
  simp only [Setter.answer, ctrlBitSetter, elim_ite_none]
  rfl

/-- SETRTR is a setter of bit 2 (R148). -/
theorem exec_setrtr_eq_run (a imm : Byte) (s : State) :
    exec (.setrtr a imm) s = .next ((ctrlBitSetter rtrBit a imm).run s) := by
  rw [exec_setrtr, execSetCtrlBit_eq_run]

/-- SETOVR is a setter of bit 3 (R149). -/
theorem exec_setovr_eq_run (a imm : Byte) (s : State) :
    exec (.setovr a imm) s = .next ((ctrlBitSetter ovrBit a imm).run s) := by
  rw [exec_setovr, execSetCtrlBit_eq_run]

/-- The meaning of each other command is that of its setter. -/
theorem exec_of_fieldSetter {i : Instr} {x : Setter} (h : fieldSetter i = some x) (s : State) :
    exec i s = .next (x.run s) := by
  rw [← x.answer_eq]
  cases i with
  | setid | setmrk | setusr | setts => cases h; rfl
  | setdlc | setdat =>
    cases h
    simp only [Setter.answer, elim_ite_none]
    rfl
  | _ => cases h

/-! Setters that do not see a flag. -/

/-- A setter that neither looks at bit `j` of the control byte nor writes it. -/
def Setter.Blind (y : Setter) (j : Nat) : Prop :=
  ∀ c f v, y.write c (f.setCtrlBit j v) = (y.write c f).map (·.setCtrlBit j v)

/-- The setter of one bit is refused or not whatever is in the register. -/
theorem ctrlBitSetter_attempt (j : Nat) (a imm : Byte) (c : Config) :
    (∀ f, (ctrlBitSetter j a imm).attempt c f = none) ∨
      ∀ f, (ctrlBitSetter j a imm).attempt c f = some (f.setCtrlBit j (immFlag imm)) := by
  by_cases ha : a.toNat < c.nframe
  · by_cases himm : 1 < imm.toNat
    · exact .inl fun f => (if_pos ha).trans (if_pos himm)
    · exact .inr fun f => (if_pos ha).trans (if_neg himm)
  · exact .inl fun f => if_neg ha

/-- Being refused or not is blind to the bit as well. -/
theorem Setter.Blind.attempt {y : Setter} {j : Nat} (h : y.Blind j) (c : Config) (f : Frame)
    (v : BitVec 1) : y.attempt c (f.setCtrlBit j v) = (y.attempt c f).map (·.setCtrlBit j v) := by
  unfold Setter.attempt
  split
  · exact h c f v
  · rfl

/-- A setter of one bit is independent of every setter that is blind to the bit. -/
theorem Setter.Blind.independent {y : Setter} {j : Nat} (h : y.Blind j) (a imm : Byte) :
    (ctrlBitSetter j a imm).Independent y where
  keep c f := by
    rcases ctrlBitSetter_attempt j a imm c with hx | hx
    · simp only [Setter.keep, hx, Option.getD_none]
    · simp only [Setter.keep, hx, Option.getD_some, h.attempt]
      cases y.attempt c f <;> rfl
  left c f := by
    rcases ctrlBitSetter_attempt j a imm c with hx | hx
    · rw [hx, hx]
    · rw [hx, hx, Option.isSome_some, Option.isSome_some]
  right c f := by
    rcases ctrlBitSetter_attempt j a imm c with hx | hx
    · rw [Setter.keep, hx, Option.getD_none]
    · rw [Setter.keep, hx, Option.getD_some, h.attempt, Option.isSome_map]

/-- Writing two different bits of a control byte in either order. -/
theorem ctrlSetBit_comm (c : Byte) {j k : Nat} (hj : j < 8) (hk : k < 8) (hne : j ≠ k)
    (v w : BitVec 1) :
    ctrlSetBit (ctrlSetBit c j v) k w = ctrlSetBit (ctrlSetBit c k w) j v := by
  apply BitVec.eq_of_getLsbD_eq
  intro i _
  simp only [ctrlSetBit_get _ _ hj, ctrlSetBit_get _ _ hk]
  by_cases hij : i = j
  · simp [hij, hne]
  · simp [hij]

/-- A setter of another bit of the control byte is blind to bit `j`. -/
theorem ctrlBitSetter_blind {j k : Nat} (hj : j < 8) (hk : k < 8) (hne : j ≠ k) (b imm : Byte) :
    (ctrlBitSetter k b imm).Blind j := by
  intro c f v
  have hcomm : (f.setCtrlBit j v).setCtrlBit k (immFlag imm) =
      (f.setCtrlBit k (immFlag imm)).setCtrlBit j v := by
    simp only [Frame.setCtrlBit, ctrlSetBit_comm f.ctrl hj hk hne]
  simp only [ctrlBitSetter, hcomm]
  split <;> rfl

/-- Writing a flag keeps the format (R148, R149). -/
theorem Frame.fmt_setCtrlBit (f : Frame) {j : Nat} (hlo : 2 ≤ j) (hhi : j < 8) (v : BitVec 1) :
    (f.setCtrlBit j v).fmt = f.fmt := ctrlFmt_ctrlSetBit f.ctrl hlo hhi v

/-- Writing a flag keeps the resolved size (R112). -/
theorem Frame.size_setCtrlBit (f : Frame) {j : Nat} (hlo : 2 ≤ j) (hhi : j < 8) (v : BitVec 1) :
    (f.setCtrlBit j v).size = f.size :=
  congrArg (dataSize · f.dlc) (f.fmt_setCtrlBit hlo hhi v)

/-- The other setters see at most the format of the control byte, so they are blind to the flags. -/
theorem fieldSetter_blind {i : Instr} {y : Setter} {j : Nat} (h : fieldSetter i = some y)
    (hlo : 2 ≤ j) (hhi : j < 8) : y.Blind j := by
  intro c f w
  cases i with
  | setmrk | setusr | setts =>
    cases h
    rfl
  | setid =>
    cases h
    simp only [f.fmt_setCtrlBit hlo hhi]
    rfl
  | setdlc =>
    cases h
    dsimp only
    split <;> rfl
  | setdat =>
    cases h
    simp only [f.size_setCtrlBit hlo hhi]
    split <;> rfl
  | _ => cases h

/-! The law. -/

/-- Commands that mean independent setters give the same state and the same two answers in both
orders. -/
theorem Setter.Independent.exec_comm {i k : Instr} {x y : Setter} (h : x.Independent y)
    (hi : ∀ s, exec i s = .next (x.run s)) (hk : ∀ s, exec k s = .next (y.run s))
    {s t u t' u' : State} (ht : exec i s = .next t) (hu : exec k t = .next u)
    (ht' : exec k s = .next t') (hu' : exec i t' = .next u') :
    u = { u' with rsp := u.rsp } ∧ u.rsp = t'.rsp ∧ u'.rsp = t.rsp := by
  rw [hi] at ht hu'
  rw [hk] at hu ht'
  cases ht
  cases ht'
  cases hu
  cases hu'
  exact ⟨h.run_run s, h.rsp_run_run s, h.symm.rsp_run_run s⟩

/-- Settles O50: SETRTR and SETOVR write one bit each, and every other setter is blind to it. -/
theorem flagSettersCommute : Obligations.FlagSettersCommute := by
  intro x y s t u t' u' hxy
  rcases hxy with ⟨⟨a, imm, rfl⟩, b, imm', rfl⟩ | ⟨hx, hy⟩
  · have hblind := ctrlBitSetter_blind (j := rtrBit) (k := ovrBit) (by decide) (by decide)
      (by decide) b imm'
    exact (hblind.independent a imm).exec_comm (exec_setrtr_eq_run a imm) (exec_setovr_eq_run b imm')
  · obtain ⟨z, hz⟩ : ∃ z, fieldSetter y = some z := by
      rcases hy with ⟨b, v, rfl⟩ | ⟨b, imm, rfl⟩ | ⟨b, imm, v, rfl⟩ | ⟨b, v, rfl⟩ | ⟨b, v, rfl⟩ |
        ⟨b, v, w, rfl⟩ <;> exact ⟨_, rfl⟩
    have hindep (j : Nat) (hlo : 2 ≤ j) (hhi : j < 8) (a imm : Byte) :
        (ctrlBitSetter j a imm).Independent z := (fieldSetter_blind hz hlo hhi).independent a imm
    rcases hx with ⟨a, imm, rfl⟩ | ⟨a, imm, rfl⟩
    · exact (hindep rtrBit (by decide) (by decide) a imm).exec_comm
        (exec_setrtr_eq_run a imm) (exec_of_fieldSetter hz)
    · exact (hindep ovrBit (by decide) (by decide) a imm).exec_comm
        (exec_setovr_eq_run a imm) (exec_of_fieldSetter hz)

end Sys2Proof.Machine
end

section
/-! Serialize (spec/42_serializer.md R162 to R164): the state after an image has been stored, and which
byte of the buffer is which field of the image. -/

namespace Sys2Proof.Machine

/-! A stored image. -/

/-- The image `l` stored at offset 0, with `BLEN` and the answer its length. -/
def State.withImage (s : State) (l : List Byte) : State :=
  { s with
    buf := Memory.writeList s.buf 0 l
    blen := BitVec.ofNat 32 l.length
    rsp := some ⟨true, BitVec.ofNat 32 l.length⟩ }

@[simp] theorem State.withImage_cfg (s : State) (l : List Byte) : (s.withImage l).cfg = s.cfg := rfl

@[simp] theorem State.withImage_rsp (s : State) (l : List Byte) :
    (s.withImage l).rsp = some ⟨true, BitVec.ofNat 32 l.length⟩ := rfl

@[simp] theorem State.frame_withImage (s : State) (l : List Byte) (a : Byte) :
    (s.withImage l).frame a = s.frame a := rfl

/-- Storing an image writes the buffer, `BLEN` and the response alone. -/
theorem State.onlyBuffer_withImage (s : State) (l : List Byte) : s.OnlyBuffer (s.withImage l) := rfl

/-- An image that fits into the buffer has a length that `BLEN` can count. -/
theorem State.Inv.blen_withImage {s : State} (h : s.Inv) {l : List Byte}
    (hl : l.length ≤ s.cfg.bufsz) : (s.withImage l).blen.toNat = l.length := by
  obtain ⟨-, -, ⟨-, hbuf⟩, -⟩ := h.legal
  exact (BitVec.toNat_ofNat _ _).trans (Nat.mod_eq_of_lt (by omega))

/-- The buffer holds the image from offset 0 on. -/
theorem State.Inv.read_withImage {s : State} (h : s.Inv) {l : List Byte} {p : Nat}
    (hp : p < l.length) : Memory.read (s.withImage l).buf p = byteOf l p := by
  rw [State.withImage, Memory.read_writeList l s.buf 0 p h.canonical, if_pos (by omega), Nat.sub_zero]

/-- The bytes beyond the image keep their values. -/
theorem State.Inv.read_withImage_beyond {s : State} (h : s.Inv) {l : List Byte} {p : Nat}
    (hp : l.length ≤ p) : Memory.read (s.withImage l).buf p = Memory.read s.buf p := by
  rw [State.withImage, Memory.read_writeList l s.buf 0 p h.canonical, if_neg (by omega)]

/-- The valid bytes are the image (R65). -/
theorem State.Inv.validBytes_withImage {s : State} (h : s.Inv) {l : List Byte}
    (hl : l.length ≤ s.cfg.bufsz) :
    Memory.readList (s.withImage l).buf 0 (s.withImage l).blen.toNat = l := by
  rw [h.blen_withImage hl]
  exact Memory.readList_writeList s.buf 0 l h.canonical

/-- A word that the image holds at offset `p`, most significant byte first (R62). -/
theorem State.Inv.read_withImage_word {s : State} (h : s.Inv) {l r : List Byte} {p : Nat} {v : Word}
    (hdrop : l.drop p = be32 v ++ r) :
    Memory.read (s.withImage l).buf p = v.extractLsb' 24 8 ∧
      Memory.read (s.withImage l).buf (p + 1) = v.extractLsb' 16 8 ∧
      Memory.read (s.withImage l).buf (p + 2) = v.extractLsb' 8 8 ∧
      Memory.read (s.withImage l).buf (p + 3) = v.extractLsb' 0 8 := by
  have hlen : l.length - p = 4 + r.length := by
    rw [← List.length_drop, hdrop, List.length_append, be32_length]
  have hbyte (j : Nat) (hj : j < 4) :
      Memory.read (s.withImage l).buf (p + j) = byteOf (be32 v) j := by
    rw [h.read_withImage (by omega), byteOf_eq_of_drop hdrop, byteOf_append_left _ _ _ hj]
  exact ⟨hbyte 0 (by decide), hbyte 1 (by decide), hbyte 2 (by decide), hbyte 3 (by decide)⟩

/-! Images fit (R65). -/

theorem State.Inv.dataImage_fits {s : State} (h : s.Inv) (f : Frame) :
    (dataImage s.cfg f).length ≤ s.cfg.bufsz := by
  obtain ⟨-, -, ⟨hbuf, -⟩, -⟩ := h.legal
  have hsize := f.size_le
  rw [dataImage_length]
  omega

theorem State.Inv.apiImage_fits {s : State} (h : s.Inv) :
    (bodyImage s.cfg.tagApi s.apiBody).length ≤ s.cfg.bufsz := by
  obtain ⟨-, -, -, hapi, -⟩ := h.legal
  rwa [bodyImage_length, h.api]

theorem State.Inv.errImage_fits {s : State} (h : s.Inv) :
    (bodyImage s.cfg.tagError s.errBody).length ≤ s.cfg.bufsz := by
  obtain ⟨-, -, -, -, herr, -⟩ := h.legal
  rwa [bodyImage_length, h.err]

/-! The commands. -/

/-- SERD stores the data image of a register (R162). -/
theorem exec_serd {s : State} {a : Byte} (h : s.Inv) (ha : a.toNat < s.cfg.nframe) :
    exec (.serd a) s = .next (s.withImage (dataImage s.cfg (s.frame a))) :=
  exec_serd_of_inv h ha

/-- SERA stores the image of the API body (R163). -/
theorem exec_sera {s : State} (h : s.Inv) :
    exec .sera s = .next (s.withImage (bodyImage s.cfg.tagApi s.apiBody)) :=
  s.storeImage_of_le _ h.apiImage_fits

/-- SERE stores the image of the error body (R164). -/
theorem exec_sere {s : State} (h : s.Inv) :
    exec .sere s = .next (s.withImage (bodyImage s.cfg.tagError s.errBody)) :=
  s.storeImage_of_le _ h.errImage_fits

/-! The fields of a data image (R66). -/

/-- What follows offset `7 + j`, counted behind the payload. -/
theorem dataImage_drop_behind (c : Config) (f : Frame) (j : Nat) :
    (dataImage c f).drop (7 + j + f.size) = (imageTail f).drop j := by
  rw [Nat.add_right_comm, dataImage_drop_tail]

theorem dataImage_drop_marker (c : Config) (f : Frame) :
    (dataImage c f).drop (7 + f.size) =
      be32 f.marker ++ (be32 f.user ++ (be32 f.ts.sec ++ be32 f.ts.nsec)) :=
  dataImage_drop_behind c f 0

theorem dataImage_drop_user (c : Config) (f : Frame) :
    (dataImage c f).drop (11 + f.size) = be32 f.user ++ (be32 f.ts.sec ++ be32 f.ts.nsec) :=
  dataImage_drop_behind c f 4

theorem dataImage_drop_sec (c : Config) (f : Frame) :
    (dataImage c f).drop (15 + f.size) = be32 f.ts.sec ++ be32 f.ts.nsec :=
  dataImage_drop_behind c f 8

theorem dataImage_drop_nsec (c : Config) (f : Frame) :
    (dataImage c f).drop (19 + f.size) = be32 f.ts.nsec ++ [] :=
  dataImage_drop_behind c f 12

/-- A visible payload byte stands at offset 7 and its index. -/
theorem byteOf_dataImage_payload (c : Config) (f : Frame) (k : Fin 64) (hk : k.val < f.size) :
    byteOf (dataImage c f) (7 + k.val) = f.data[k] := by
  rw [byteOf_eq_of_drop (dataImage_drop_payload c f),
    byteOf_append_left _ _ _ (by rwa [f.payload_length]), f.byteOf_payload k hk]

/-- Settles O32: SERD stores the data image, and each field is read back at its offset. -/
theorem serdWritesDataImage : Obligations.SerdWritesDataImage := by
  intro s a x y h ha
  have hlen := dataImage_length s.cfg (s.frame a)
  have hhead {p : Nat} (hp : p < 3) := h.read_withImage (l := dataImage s.cfg (s.frame a))
    (p := p) (by omega)
  refine ⟨decode_of_encode rfl rfl, _, exec_serd h ha, s.onlyBuffer_withImage _, ?_, ?_,
    hhead (by decide), hhead (by decide), ?_,
    h.read_withImage_word (dataImage_drop_id _ _), fun k hk => ?_,
    h.read_withImage_word (dataImage_drop_marker _ _),
    h.read_withImage_word (dataImage_drop_user _ _),
    h.read_withImage_word (dataImage_drop_sec _ _),
    h.read_withImage_word (dataImage_drop_nsec _ _),
    fun p hp => h.read_withImage_beyond (by rwa [hlen])⟩
  · rw [State.withImage_rsp, hlen]
  · rw [h.blen_withImage (h.dataImage_fits _), hlen]
  · rw [hhead (by decide)]
    exact BitVec.toNat_setWidth_of_le (show 4 ≤ 8 by decide)
  · rw [h.read_withImage (by omega), byteOf_dataImage_payload _ _ k hk]

/-- What the image of a body of `n` bytes leaves in the buffer, for either tag (R67). -/
theorem State.Inv.withImage_bodyImage {s : State} (h : s.Inv) {tag : Byte} {body : List Byte}
    {n : Nat} (hn : body.length = n) (hfits : (bodyImage tag body).length ≤ s.cfg.bufsz) :
    (s.withImage (bodyImage tag body)).rsp = some ⟨true, BitVec.ofNat 32 (1 + n)⟩ ∧
      (s.withImage (bodyImage tag body)).blen.toNat = 1 + n ∧
      Memory.read (s.withImage (bodyImage tag body)).buf 0 = tag ∧
      (∀ k, k < n →
        body[k]? = some (Memory.read (s.withImage (bodyImage tag body)).buf (1 + k))) ∧
      ∀ p, 1 + n ≤ p →
        Memory.read (s.withImage (bodyImage tag body)).buf p = Memory.read s.buf p := by
  subst hn
  have hlen := bodyImage_length tag body
  refine ⟨by rw [State.withImage_rsp, hlen], by rw [h.blen_withImage hfits, hlen],
    h.read_withImage (by omega), fun k hk => ?_,
    fun p hp => h.read_withImage_beyond (by rwa [hlen])⟩
  rw [h.read_withImage (by omega), getElem?_eq_byteOf body k hk]
  exact congrArg some (byteOf_append_right [tag] body k).symm

/-- Settles O33: both store the image of their body. -/
theorem seraSereWriteBodyImage : Obligations.SeraSereWriteBodyImage := by
  intro s x y h
  exact ⟨decode_of_encode rfl rfl, decode_of_encode rfl rfl,
    ⟨_, exec_sera h, s.onlyBuffer_withImage _, h.withImage_bodyImage h.api h.apiImage_fits⟩,
    ⟨_, exec_sere h, s.onlyBuffer_withImage _, h.withImage_bodyImage h.err h.errImage_fits⟩⟩

end Sys2Proof.Machine
end

section
/-! Deserialize (spec/42_serializer.md R165 to R169): what DESD, DESA, DESE and BKIND make of the valid
bytes of the buffer. -/

namespace Sys2Proof.Machine

/-! Valid bytes. -/

/-- A byte of the first `n` bytes of the buffer. -/
theorem Memory.byteOf_readList_zero (m : List Host.Cell) {n k : Nat} (hk : k < n) :
    byteOf (Memory.readList m 0 n) k = Memory.read m k := by
  rw [Memory.byteOf_readList m 0 n k hk, Nat.zero_add]

/-! Data images. -/

/-- The resolved payload size that the control byte and the DLC byte of an image give. -/
def imageSize (l : List Byte) : Nat := dataSize (ctrlFmt (byteOf l 1)) (immDlc (byteOf l 2))

/-- The checks of R166 as one condition. -/
def IsDataImage (c : Config) (l : List Byte) : Prop :=
  23 ≤ l.length ∧ byteOf l 0 = c.tagData ∧ (byteOf l 1).toNat < 16 ∧ (byteOf l 2).toNat ≤ 15 ∧
    23 + imageSize l ≤ l.length

/-- The frame in the fields of an image (R166). -/
def imageFrame (l : List Byte) : Frame where
  ctrl := byteOf l 1
  dlc := immDlc (byteOf l 2)
  id := unbe32 (l.drop 3) &&& idMask (ctrlFmt (byteOf l 1))
  data := storeOf ((l.drop 7).take (imageSize l))
  marker := unbe32 (l.drop (7 + imageSize l))
  user := unbe32 (l.drop (11 + imageSize l))
  ts := ⟨unbe32 (l.drop (15 + imageSize l)), unbe32 (l.drop (19 + imageSize l))⟩

@[simp] theorem imageFrame_size (l : List Byte) : (imageFrame l).size = imageSize l := rfl

@[simp] theorem imageFrame_dlc (l : List Byte) : (imageFrame l).dlc = immDlc (byteOf l 2) := rfl

/-- The identifier is masked on entry, by bit 0 of the control byte (R24, R25). -/
theorem imageFrame_id (l : List Byte) : (imageFrame l).id =
    unbe32 (l.drop 3) &&& if (byteOf l 1).getLsbD 0 then 0x1FFFFFFF else 0x7FF :=
  congrArg (unbe32 (l.drop 3) &&& ·) (imageFrame l).idMask_fmt

/-- A payload byte comes from the image, a hidden byte is 0 (R166). -/
theorem imageFrame_data (l : List Byte) (k : Fin 64) :
    (imageFrame l).data[k] = if k.val < imageSize l then byteOf l (7 + k.val) else 0 := by
  rw [imageFrame, storeOf_get, byteOf_take, byteOf_drop]

/-- Bytes that pass the checks carry the frame in their fields. -/
theorem parseData_of_isDataImage {c : Config} {l : List Byte} (h : IsDataImage c l) :
    parseData c l = some (imageFrame l) := by
  obtain ⟨hhead, htag, hctrl, hdlc, hlen⟩ := h
  rw [← ctrlReserved_eq_zero_iff] at hctrl
  rw [parseData, if_neg (by omega), if_neg (not_not_intro htag), if_neg (by omega),
    if_neg (not_not_intro hctrl), if_neg (by omega)]
  exact if_neg (Nat.not_lt.mpr hlen)

/-- Bytes that fail a check carry no frame. -/
theorem parseData_of_not_isDataImage {c : Config} {l : List Byte} (h : ¬ IsDataImage c l) :
    parseData c l = none := by
  unfold parseData
  split; · rfl
  split; · rfl
  split; · rfl
  split; · rfl
  split; · rfl
  rename_i htag hhead hctrl hdlc
  refine if_pos (Nat.not_le.mp fun hlen => h ⟨by omega, not_not.mp htag, ?_, by omega, hlen⟩)
  rwa [not_not, ctrlReserved_eq_zero_iff] at hctrl

/-- The resolved size by the FD bit of the control byte and the DLC byte, as they stand in the buffer
(R112). -/
def wireSize (c d : Byte) : Nat :=
  if c.getLsbD 1 then fdTable.getD d.toNat 0 else min d.toNat 8

/-- The resolved size of the image in the valid bytes. -/
theorem imageSize_readList (m : List Host.Cell) {n : Nat} (hn : 23 ≤ n)
    (hdlc : (Memory.read m 2).toNat ≤ 15) :
    imageSize (Memory.readList m 0 n) = wireSize (Memory.read m 1) (Memory.read m 2) := by
  rw [imageSize, Memory.byteOf_readList_zero m (by omega), Memory.byteOf_readList_zero m (by omega)]
  exact dataSize_of_bytes _ _ hdlc

/-- The checks of R166 on the valid bytes, in terms of the buffer. -/
theorem isDataImage_readList_iff (c : Config) (m : List Host.Cell) (n : Nat) :
    IsDataImage c (Memory.readList m 0 n) ↔
      23 ≤ n ∧ Memory.read m 0 = c.tagData ∧ (Memory.read m 1).toNat < 16 ∧
        (Memory.read m 2).toNat ≤ 15 ∧ 23 + wireSize (Memory.read m 1) (Memory.read m 2) ≤ n := by
  rw [IsDataImage, Memory.readList_length]
  refine and_congr_right fun hn => ?_
  rw [Memory.byteOf_readList_zero m (by omega), Memory.byteOf_readList_zero m (by omega),
    Memory.byteOf_readList_zero m (by omega)]
  refine and_congr_right fun _ => and_congr_right fun _ => and_congr_right fun hdlc => ?_
  rw [imageSize_readList m hn hdlc]

/-- DESD of bytes that do not parse is a value failure (R165). -/
theorem exec_desd_of_none {s : State} {a : Byte} (ha : a.toNat < s.cfg.nframe)
    (hv : s.blen.toNat ≤ s.cfg.bufsz)
    (hp : parseData s.cfg (Memory.readList s.buf 0 s.blen.toNat) = none) :
    exec (.desd a) s = .next { s with rsp := some ⟨false, 0⟩ } := by
  rw [exec, execDesd, s.withFrame_of_lt a _ ha, s.validBytes_of_le _ hv, hp]
  rfl

/-- Settles O34: the checks and the fields of R166, on the valid bytes of the buffer. -/
theorem desdReadsDataImage : Obligations.DesdReadsDataImage := by
  intro s a x y h hv
  refine ⟨decode_of_encode rfl rfl, ?_⟩
  intro m word n good
  have himage : IsDataImage s.cfg (Memory.readList s.buf 0 s.blen.toNat) ↔ good :=
    isDataImage_readList_iff ..
  refine ⟨fun hgood => ?_, fun hbad =>
    exec_desd_of_none h.1 hv (parseData_of_not_isDataImage (mt himage.mp hbad))⟩
  have hexec := exec_desd_of_some h.1 hv (parseData_of_isDataImage (himage.mpr hgood))
  obtain ⟨hhead, -, -, hdlc, hfits⟩ := hgood
  have hn : imageSize (Memory.readList s.buf 0 s.blen.toNat) = n := imageSize_readList _ hhead hdlc
  have hbyte {k : Nat} (hk : k < s.blen.toNat) :
      byteOf (Memory.readList s.buf 0 s.blen.toNat) k = m k := Memory.byteOf_readList_zero _ hk
  have hword {p : Nat} (hp : p + 4 ≤ s.blen.toNat) :
      unbe32 ((Memory.readList s.buf 0 s.blen.toNat).drop p) = word p := unbe32_readList _ _ _ hp
  generalize Memory.readList s.buf 0 s.blen.toNat = l at hexec hn hbyte hword
  have hbehind {p : Nat} (hp : p + 4 ≤ 23) : unbe32 (l.drop (p + imageSize l)) = word (p + n) := by
    rw [hn, hword (by omega)]
  refine ⟨_, hexec, s.onlyFrame_setFrame a _ _ _, ?_⟩
  rw [State.frame_respond, s.frame_setFrame_self a _ h, State.respond_rsp, imageFrame_size, hn]
  refine ⟨rfl, hbyte (by omega), ?_, ?_, fun k => ?_, hbehind (by decide), hbehind (by decide),
    hbehind (by decide), hbehind (by decide)⟩
  · rw [imageFrame_dlc, hbyte (by omega), immDlc_toNat hdlc]
  · rw [imageFrame_id, hword (by omega), hbyte (by omega)]
  · rw [imageFrame_data, hn]
    exact ite_congr rfl (fun hk => hbyte (by omega)) fun _ => rfl

/-! Body images. -/

/-- The body in the valid bytes, or none (R167, R168). -/
theorem parseBody_readList (tag : Byte) (n : Nat) (m : List Host.Cell) (len : Nat) :
    parseBody tag n (Memory.readList m 0 len) =
      if 1 + n ≤ len ∧ Memory.read m 0 = tag then some (Memory.readList m 1 n) else none := by
  rw [parseBody_eq, Memory.readList_length]
  by_cases hlen : 1 + n ≤ len
  · have hbody : ((Memory.readList m 0 len).drop 1).take n = Memory.readList m 1 n := by
      refine eq_of_byteOf _ _ (by simp; omega) fun k hk => ?_
      have hkn : k < n := by simp at hk; omega
      rw [byteOf_take, if_pos hkn, byteOf_drop, Memory.byteOf_readList_zero m (by omega),
        Memory.byteOf_readList m 1 n k hkn]
    rw [hbody, Memory.byteOf_readList_zero m (by omega)]
  · rw [if_neg fun h => hlen h.1, if_neg fun h => hlen h.1]

/-- A byte of a list of bytes read from the buffer. -/
theorem Memory.getElem?_readList (m : List Host.Cell) (a : Nat) {n k : Nat} (hk : k < n) :
    (Memory.readList m a n)[k]? = some (Memory.read m (a + k)) := by
  rw [getElem?_eq_byteOf _ _ (by rwa [Memory.readList_length]), Memory.byteOf_readList m a n k hk]

/-- DESA of bytes that do not parse is a value failure (R165). -/
theorem exec_desa_of_none {s : State} (hv : s.blen.toNat ≤ s.cfg.bufsz)
    (hp : parseBody s.cfg.tagApi s.cfg.apiLen (Memory.readList s.buf 0 s.blen.toNat) = none) :
    exec .desa s = .next { s with rsp := some ⟨false, 0⟩ } := by
  rw [exec, execDesa, s.validBytes_of_le _ hv, hp]
  rfl

/-- DESE of bytes that do not parse is a value failure (R165). -/
theorem exec_dese_of_none {s : State} (hv : s.blen.toNat ≤ s.cfg.bufsz)
    (hp : parseBody s.cfg.tagError s.cfg.errLen (Memory.readList s.buf 0 s.blen.toNat) = none) :
    exec .dese s = .next { s with rsp := some ⟨false, 0⟩ } := by
  rw [exec, execDese, s.validBytes_of_le _ hv, hp]
  rfl

/-- Settles O35: the body stands behind the tag in the valid bytes. -/
theorem desaDeseReadBodyImage : Obligations.DesaDeseReadBodyImage := by
  intro s x y h
  refine ⟨decode_of_encode rfl rfl, decode_of_encode rfl rfl, fun hgood => ?_, fun hbad => ?_,
    fun hgood => ?_, fun hbad => ?_⟩
  · exact ⟨_, exec_desa_of_some h.valid ((parseBody_readList ..).trans (if_pos hgood)), rfl, rfl,
      Memory.readList_length .., fun k hk => Memory.getElem?_readList _ _ hk⟩
  · exact exec_desa_of_none h.valid ((parseBody_readList ..).trans (if_neg hbad))
  · exact ⟨_, exec_dese_of_some h.valid ((parseBody_readList ..).trans (if_pos hgood)), rfl, rfl,
      Memory.readList_length .., fun k hk => Memory.getElem?_readList _ _ hk⟩
  · exact exec_dese_of_none h.valid ((parseBody_readList ..).trans (if_neg hbad))

/-! The kind of an image. -/

/-- BKIND of an empty buffer is a value failure (R169). -/
theorem exec_bkind_of_empty {s : State} (h : s.blen = 0) :
    exec .bkind s = .next { s with rsp := some ⟨false, 0⟩ } := by
  have hzero : s.blen.toNat = 0 := by rw [h]; rfl
  rw [exec, execBkind, s.validBytes_of_le _ (by omega), if_pos (by rw [Memory.readList_length]; omega)]
  rfl

/-- BKIND of a buffer that is not empty looks at the first byte (R169). -/
theorem exec_bkind_of_ne {s : State} (hv : s.blen.toNat ≤ s.cfg.bufsz) (h : s.blen ≠ 0) :
    exec .bkind s =
      if Memory.read s.buf 0 = s.cfg.tagData then s.done 0
      else if Memory.read s.buf 0 = s.cfg.tagApi then s.done 1
      else if Memory.read s.buf 0 = s.cfg.tagError then s.done 2
      else s.fail := by
  have hpos : 0 < s.blen.toNat := Nat.pos_of_ne_zero (BitVec.toNat_ne_iff_ne.mpr h)
  rw [exec, execBkind, s.validBytes_of_le _ hv, Memory.byteOf_readList_zero s.buf hpos,
    if_neg (by rw [Memory.readList_length]; omega)]

/-- Settles O36: the three tags are distinct, so the order of the checks does not matter. -/
theorem bkindClassifiesByTag : Obligations.BkindClassifiesByTag := by
  intro s x y h
  obtain ⟨-, -, -, -, -, hdataApi, hdataErr, hapiErr⟩ := h.legal
  refine ⟨decode_of_encode rfl rfl, exec_bkind_of_empty, fun hne => ?_⟩
  rw [exec_bkind_of_ne h.valid hne]
  refine ⟨fun hdata => if_pos hdata, fun hapi => ?_, fun herr => ?_, fun hdata hapi herr => ?_⟩
  · rw [hapi, if_neg hdataApi.symm, if_pos rfl]
    rfl
  · rw [herr, if_neg hdataErr.symm, if_neg hapiErr.symm, if_pos rfl]
    rfl
  · rw [if_neg hdata, if_neg hapi, if_neg herr]
    rfl

end Sys2Proof.Machine
end

section
/-! Serialize, then deserialize (spec/42_serializer.md R161). -/

namespace Sys2Proof.Machine

/-- A stored image has a valid `BLEN` (R44 (7)). -/
theorem State.Inv.withImage {s : State} (h : s.Inv) {l : List Byte}
    (hl : l.length ≤ s.cfg.bufsz) : (s.withImage l).Inv :=
  h.storeImage hl _

/-- The visible part of a frame, its hidden bytes zero (R27, R36). -/
def Frame.visible (f : Frame) : Frame := { f with data := storeOf f.payload }

/-- Byte `k` of the visible part. -/
theorem Frame.visible_get (f : Frame) (k : Fin 64) :
    f.visible.data[k] = if k.val < f.size then f.data[k] else 0 := by
  rw [Frame.visible, storeOf_get, Frame.payload, byteOf_take, byteOf_store]

/-- The hidden bytes do not count for the resolved size (R112). -/
theorem Frame.visible_size (f : Frame) : f.visible.size = f.size := by
  rw [Frame.visible, Frame.size, Frame.size, Frame.fmt, Frame.fmt]

/-- FEQ does not see the hidden bytes (R126). -/
theorem frameEq_visible (f : Frame) : frameEq f f.visible = true := by
  rw [frameEq_iff]
  refine ⟨?_, ?_, ?_, fun k hk => ?payload, ?_, ?_, ?_, ?_⟩
  case payload => rw [f.visible_get, if_pos hk]
  all_goals rw [Frame.visible]

/-- A frame equals itself by value (R126). -/
theorem frameEq_self (f : Frame) : frameEq f f = true :=
  (frameEq_iff f f).mpr ⟨rfl, rfl, rfl, fun _ _ => rfl, rfl, rfl, rfl, rfl⟩

/-- DESD of a stored data image writes the visible part of the frame (R161). -/
theorem State.Inv.exec_desd_withImage {s : State} (h : s.Inv) {a b : Byte}
    (ha : a.toNat < s.cfg.nframe) (hb : b.toNat < s.cfg.nframe) :
    exec (.desd b) (s.withImage (dataImage s.cfg (s.frame a))) =
      .next (((s.withImage (dataImage s.cfg (s.frame a))).setFrame b (s.frame a).visible).respond
        true (BitVec.ofNat 32 (23 + (s.frame a).size))) := by
  have hfits := h.dataImage_fits (s.frame a)
  rw [← (s.frame a).visible_size]
  refine exec_desd_of_some hb (h.withImage hfits).valid ?_
  rw [h.validBytes_withImage hfits]
  exact parseData_dataImage s.cfg (s.frame a) (h.frame_inv ha)

/-- FEQ of two registers that are equal by value answers 1 (R126). -/
theorem exec_feq_of_frameEq {s : State} {a b : Byte} (ha : a.toNat < s.cfg.nframe)
    (hb : b.toNat < s.cfg.nframe) (h : frameEq (s.frame a) (s.frame b) = true) :
    exec (.feq a b) s = .next { s with rsp := some ⟨true, 1⟩ } := by
  rw [exec, execFeq, s.withFrames_of_lt a b _ ha hb, h]
  rfl

/-- The visible part of a register, written to any register, equals that register by value, whether it
is written to another one or to itself. -/
theorem State.frameEq_setFrame_visible {s : State} {a b : Byte} {f : Frame} (hb : s.HasFrame b)
    (hf : s.frame a = f) :
    frameEq ((s.setFrame b f.visible).frame a) ((s.setFrame b f.visible).frame b) = true := by
  by_cases hab : a = b
  · rw [hab, frameEq_self]
  · rw [s.frame_setFrame_self b _ hb, s.frame_setFrame_other b a _ hab, hf, frameEq_visible]

/-- Settles O39: parsing undoes serializing but for the hidden bytes, which FEQ does not see. -/
theorem serializeRoundTrip : Obligations.SerializeRoundTrip := by
  intro s a b h ha hb
  have htarget := State.frame_setFrame_self (s.withImage (dataImage s.cfg (s.frame a))) b
    (s.frame a).visible (h.hasFrame hb)
  refine ⟨_, _, exec_serd h ha, h.exec_desd_withImage ha hb, rfl, ?_, fun k => ?_,
    exec_feq_of_frameEq ha hb ?_⟩
  · rw [State.frame_respond, htarget, Frame.visible]
  · rw [State.frame_respond, htarget, Frame.visible_get]
  · rw [State.frame_respond, State.frame_respond]
    exact State.frameEq_setFrame_visible (h.hasFrame hb) (s.frame_withImage _ a)

/-- Settles O40: parsing the image of a body gives the body back, for either tag. -/
theorem bodyRoundTrip : Obligations.BodyRoundTrip := by
  intro s h
  have hapi : parseBody s.cfg.tagApi s.cfg.apiLen (bodyImage s.cfg.tagApi s.apiBody) =
      some s.apiBody := h.api ▸ parseBody_bodyImage _ _
  have herr : parseBody s.cfg.tagError s.cfg.errLen (bodyImage s.cfg.tagError s.errBody) =
      some s.errBody := h.err ▸ parseBody_bodyImage _ _
  rw [← h.validBytes_withImage h.apiImage_fits] at hapi
  rw [← h.validBytes_withImage h.errImage_fits] at herr
  exact ⟨⟨_, _, exec_sera h, exec_desa_of_some (h.withImage h.apiImage_fits).valid hapi, rfl⟩,
    ⟨_, _, exec_sere h, exec_dese_of_some (h.withImage h.errImage_fits).valid herr, rfl⟩⟩

end Sys2Proof.Machine
end

section
/-! The bytes of the opaque bodies (spec/42_serializer.md R170 to R173). -/

namespace Sys2Proof.Machine

/-- One byte of a body is written. -/
theorem body_set {l : List Byte} {i n : Nat} (hl : l.length = n) (hi : i < n) (v : Byte) :
    (l.set i v).length = n ∧ (l.set i v)[i]? = some v ∧
      ∀ k, k ≠ i → (l.set i v)[k]? = l[k]? := by
  subst hl
  exact ⟨List.length_set, List.getElem?_set_self hi, fun k hk => List.getElem?_set_ne hk.symm⟩

/-- Settles O37: an index below `API_LEN` names a byte of the body. -/
theorem apiBodyByteAccess : Obligations.ApiBodyByteAccess := by
  intro s x v hlen
  refine ⟨decode_of_encode rfl rfl, decode_of_encode rfl rfl, fun hx => ?_,
    fun hx => ⟨if_pos hx, if_pos hx⟩⟩
  have hin := Nat.not_le.mpr hx
  exact ⟨⟨_, if_neg hin, rfl, rfl, body_set hlen hx _⟩, _, getElem?_eq_byteOf _ _ (hlen ▸ hx),
    if_neg hin⟩

/-- Settles O38: an index below `ERR_LEN` names a byte of the body. -/
theorem errorBodyByteAccess : Obligations.ErrorBodyByteAccess := by
  intro s x v hlen
  refine ⟨decode_of_encode rfl rfl, decode_of_encode rfl rfl, fun hx => ?_,
    fun hx => ⟨if_pos hx, if_pos hx⟩⟩
  have hin := Nat.not_le.mpr hx
  exact ⟨⟨_, if_neg hin, rfl, rfl, body_set hlen hx _⟩, _, getElem?_eq_byteOf _ _ (hlen ▸ hx),
    if_neg hin⟩

end Sys2Proof.Machine
end

section
/-! The identifier filter (spec/43_filter.md): what FLAPP accepts and appends, that the last place of the
list is appended and removed exactly, and the verdict of FLTEST from which rules of the list hit. -/

namespace Sys2Proof.Machine

/-! FLAPP: what it accepts, and the rule it stores. -/

/-- The operands that FLAPP accepts (R191). -/
abbrev State.AcceptsRule (s : State) (a b : Byte) (lo hi : Word) : Prop :=
  a.toNat ≤ 1 ∧ b.toNat ≤ 4 ∧ lo.toNat ≤ hi.toNat ∧ s.flcnt.toNat < s.cfg.nfilt

/-- The rule that FLAPP stores for its operands (R191). -/
def ruleOf (a b : Byte) (lo hi : Word) : Rule := ⟨a.extractLsb' 0 1, b.extractLsb' 0 3, lo, hi⟩

/-- A legal policy is stored as given. -/
theorem ruleOf_policy_toNat {a : Byte} (ha : a.toNat ≤ 1) (b : Byte) (lo hi : Word) :
    (ruleOf a b lo hi).policy.toNat = a.toNat := by
  rw [ruleOf, BitVec.extractLsb'_toNat, Nat.shiftRight_zero]
  omega

/-- A legal rule format is stored as given. -/
theorem ruleOf_rfmt_toNat {b : Byte} (hb : b.toNat ≤ 4) (a : Byte) (lo hi : Word) :
    (ruleOf a b lo hi).rfmt.toNat = b.toNat := by
  rw [ruleOf, BitVec.extractLsb'_toNat, Nat.shiftRight_zero]
  omega

/-- FLAPP appends the rule of its operands when it accepts them, and fails otherwise. -/
theorem State.Inv.exec_flapp {s : State} (h : s.Inv) (a b : Byte) (lo hi : Word) :
    exec (.flapp a b lo hi) s =
      if s.AcceptsRule a b lo hi then (s.appendRule (ruleOf a b lo hi)).done s.flcnt
      else s.fail := by
  have hcount := h.count
  rw [exec, execFlapp, ← ite_or, ← ite_or, ← ite_or, ← ite_not]
  exact if_congr (by omega) rfl rfl

/-- A FLAPP that answers `OK` accepted its operands, and its answer is the index of the new rule. -/
theorem State.Inv.flapp_ok {s t : State} (h : s.Inv) {a b : Byte} {lo hi k : Word}
    (hexec : exec (.flapp a b lo hi) s = .next t) (hrsp : t.rsp = some ⟨true, k⟩) :
    s.AcceptsRule a b lo hi ∧ k = s.flcnt ∧
      t = (s.appendRule (ruleOf a b lo hi)).respond true s.flcnt := by
  rw [h.exec_flapp] at hexec
  split at hexec <;> (injection hexec with hexec; subst hexec)
  case isTrue haccepts =>
    injection hrsp with hrsp
    injection hrsp with _ hk
    exact ⟨haccepts, hk.symm, rfl⟩
  case isFalse =>
    injection hrsp with hrsp
    injection hrsp with hok
    exact absurd hok Bool.false_ne_true

/-! The list after a rule is appended, and after the last one is removed. -/

/-- `FLCNT` does not overflow while a slot is free (R38). -/
theorem State.Inv.flcnt_succ {s : State} (h : s.Inv) (hfree : s.flcnt.toNat < s.cfg.nfilt) :
    (s.flcnt + 1).toNat = s.flcnt.toNat + 1 := by
  obtain ⟨-, ⟨-, hnfilt⟩, -⟩ := h.legal
  bv_omega

/-- A list with a free slot becomes longer by the appended rule (R34, R191). -/
theorem State.Inv.ruleList_appendRule {s : State} (h : s.Inv)
    (hfree : s.flcnt.toNat < s.cfg.nfilt) (r : Rule) :
    (s.appendRule r).ruleList = s.ruleList ++ [r] := by
  have hslot : s.flcnt.toNat < (s.rules.set s.flcnt.toNat r).length := by
    rwa [List.length_set, h.slots]
  rw [State.ruleList, State.appendRule_flcnt, h.flcnt_succ hfree, State.appendRule_rules,
    List.take_succ_eq_append_getElem hslot, List.getElem_set_self, List.take_set_of_le le_rfl,
    State.ruleList]

/-- Removing the last rule of the list moves no slot (R192). -/
theorem closeGap_last (l : List Rule) (i : Nat) (hi : i < l.length) : closeGap l i (i + 1) = l := by
  refine List.ext_getElem? fun k => ?_
  rw [closeGap_get l i (i + 1) k hi, if_neg (by omega)]

/-- Appending a rule and removing the last one restores the list (R198). -/
theorem State.Inv.ruleList_removeRule_appendRule {s : State} (h : s.Inv)
    (hfree : s.flcnt.toNat < s.cfg.nfilt) (r : Rule) :
    ((s.appendRule r).removeRule s.flcnt.toNat).ruleList = s.ruleList := by
  rw [State.ruleList, State.removeRule_rules, State.removeRule_flcnt, State.appendRule_rules,
    State.appendRule_flcnt, h.flcnt_succ hfree,
    closeGap_last _ _ (by rwa [List.length_set, h.slots]), BitVec.add_sub_cancel,
    List.take_set_of_le le_rfl, State.ruleList]

/-- Settles O41: the free slot at `FLCNT` takes the rule of the operands. -/
theorem flappAppendsRule : Obligations.FlappAppendsRule := by
  intro s a b lo hi h
  refine ⟨decode_of_encode rfl rfl, fun hgood => ?_,
    fun hbad => (h.exec_flapp ..).trans (if_neg hbad)⟩
  have hexec := (h.exec_flapp a b lo hi).trans (if_pos hgood)
  obtain ⟨ha, hb, -, hfree⟩ := hgood
  exact ⟨_, hexec, rfl, rfl, h.flcnt_succ hfree, List.length_set,
    ⟨ruleOf a b lo hi, List.getElem?_set_self (h.slots ▸ hfree), ruleOf_policy_toNat ha ..,
      ruleOf_rfmt_toNat hb .., rfl, rfl⟩,
    fun k hk => List.getElem?_set_ne hk.symm⟩

/-- Settles O42: the slots after the gap is closed are those of `closeGap_get`. -/
theorem flremClosesGap : Obligations.FlremClosesGap := by
  intro s x y h
  refine ⟨decode_of_encode rfl rfl, fun hx => ?_, fun hx => if_pos hx⟩
  have hcnt : (s.flcnt - 1).toNat + 1 = s.flcnt.toNat := by bv_omega
  exact ⟨_, if_neg (Nat.not_le.mpr hx), rfl, rfl, hcnt,
    fun k => closeGap_get _ _ _ k (h.slots ▸ h.count)⟩

/-- Settles O44: the index answered is that of the last rule, so no slot moves and the list loses the
new rule alone. -/
theorem appendThenRemoveRestoresList : Obligations.AppendThenRemoveRestoresList := by
  intro s t a b lo hi k h hexec hrsp
  obtain ⟨⟨-, -, -, hfree⟩, rfl, rfl⟩ := h.flapp_ok hexec hrsp
  have hlast : ¬ (s.flcnt + 1).toNat ≤ s.flcnt.toNat := by rw [h.flcnt_succ hfree]; omega
  exact ⟨_, if_neg hlast, rfl, BitVec.add_sub_cancel .., h.ruleList_removeRule_appendRule hfree _⟩

/-! FLTEST. -/

/-- What FLTEST answers for a legal index (R194). -/
theorem exec_fltest {s : State} {a : Byte} (ha : a.toNat < s.cfg.nframe) :
    exec (.fltest a) s =
      .next { s with rsp := some ⟨true, (verdict s.ruleList (s.frame a)).setWidth 32⟩ } :=
  s.readFrame_of_lt a (fun f => (verdict s.ruleList f).setWidth 32) ha

/-- When a rule hits a frame (R190). -/
theorem Rule.hits_iff (r : Rule) (f : Frame) :
    r.hits f = true ↔ (r.rfmt.toNat = 4 ∨ r.rfmt.toNat = f.ctrl.toNat % 4) ∧
      r.low.toNat ≤ f.id.toNat ∧ f.id.toNat ≤ r.high.toNat := by
  simp only [Rule.hits, Frame.fmt, ctrlFmt_toNat, Bool.and_eq_true, Bool.or_eq_true, beq_iff_eq,
    decide_eq_true_eq]

/-- A rule sees the format and the identifier of a frame alone (R190). -/
theorem Rule.hits_congr (r : Rule) {f g : Frame} (hfmt : f.fmt = g.fmt) (hid : f.id = g.id) :
    r.hits f = r.hits g := by
  rw [Rule.hits, Rule.hits, hfmt, hid]

/-- The verdict sees the format and the identifier of a frame alone (R194). -/
theorem verdict_congr (l : List Rule) {f g : Frame} (hfmt : f.fmt = g.fmt) (hid : f.id = g.id) :
    verdict l f = verdict l g := by
  simp only [verdict, Rule.hits_congr _ hfmt hid]

/-- Settles O43: the verdict is the policy of the last hit (`verdict_last`), or 0 (`verdict_none`). -/
theorem lastMatchingRuleWins : Obligations.LastMatchingRuleWins := by
  intro s a x y h ha
  have hlen : s.flcnt.toNat ≤ s.rules.length := h.slots ▸ h.count
  refine ⟨decode_of_encode rfl rfl, decode_of_encode rfl rfl, rfl, ?_⟩
  simp only [← Rule.hits_iff, Bool.not_eq_true]
  refine ⟨fun k r hk hr hhit hlater => ?_, fun hnone => ?_⟩
  · rw [exec_fltest ha, State.ruleList, verdict_last _ _ k r hr hhit _ hk hlen hlater,
      BitVec.ofNat_toNat]
  · rw [exec_fltest ha, State.ruleList, verdict_none _ _ _ hlen hnone]
    rfl

/-- Settles O45: FLTEST reads the list and the frame, and of the frame the format and the identifier. -/
theorem verdictDependsOnListFormatIdOnly : Obligations.VerdictDependsOnListFormatIdOnly := by
  intro s t a b ha hb hlist hfmt hid
  refine ⟨_, exec_fltest ha, ?_⟩
  rw [exec_fltest hb, hlist, verdict_congr _ hfmt hid]

/-- What FLTEST answers after a rule was appended: where the rule hits its policy, and elsewhere the
verdict of before (R195). -/
theorem State.Inv.exec_fltest_appendRule {s : State} (h : s.Inv)
    (hfree : s.flcnt.toNat < s.cfg.nfilt) (r : Rule) (v : Word) {a : Byte}
    (ha : a.toNat < s.cfg.nframe) :
    exec (.fltest a) ((s.appendRule r).respond true v) =
      .next { (s.appendRule r).respond true v with
        rsp := some ⟨true, BitVec.setWidth 32 (if r.hits (s.frame a) then r.policy
          else verdict s.ruleList (s.frame a))⟩ } := by
  rw [← verdict_append, ← h.ruleList_appendRule hfree]
  exact exec_fltest ha

/-- Settles O46: whether the rule as stored hits is whether the operands do. -/
theorem appendedRuleDecidesWhatItHits : Obligations.AppendedRuleDecidesWhatItHits := by
  intro s t p b a lo hi k h ha hexec hrsp
  obtain ⟨⟨hp, hb, -, hfree⟩, -, rfl⟩ := h.flapp_ok hexec hrsp
  have hhit := (ruleOf p b lo hi).hits_iff (s.frame a)
  rw [ruleOf_rfmt_toNat hb] at hhit
  refine ⟨_, _, exec_fltest ha, h.exec_fltest_appendRule hfree _ _ ha, fun hyes => ?_,
    fun hno => ?_⟩
  · rw [if_pos (hhit.mpr hyes), BitVec.toNat_setWidth, ruleOf_policy_toNat hp]
    omega
  · rw [if_neg (mt hhit.mp hno)]

end Sys2Proof.Machine
end

section
/-! Timestamp arithmetic (spec/44_timestamp.md R212 to R214): TSADD and TSSUB write one timestamp and
answer whether it is the sentinel; which one is `tsAdd_spec` and `tsSub_spec`. -/

namespace Sys2Proof.Machine

/-! What both commands do: write a timestamp and answer its validity. -/

/-- The state after `r` was written as the timestamp of `F[a]` and answered (`State.putTs`). -/
def State.withTs (s : State) (a : Byte) (r : Timestamp) : State :=
  (s.setFrame a { s.frame a with ts := r }).respond true (if r = invalidTs then 0 else 1)

@[simp] theorem State.withTs_cfg (s : State) (a : Byte) (r : Timestamp) :
    (s.withTs a r).cfg = s.cfg := rfl

@[simp] theorem State.withTs_rsp (s : State) (a : Byte) (r : Timestamp) :
    (s.withTs a r).rsp = some ⟨true, if r = invalidTs then 0 else 1⟩ := rfl

/-- `RV = 1` tells that the timestamp written is not the sentinel. -/
theorem State.withTs_rsp_one_iff (s : State) (a : Byte) (r : Timestamp) :
    (s.withTs a r).rsp = some ⟨true, 1⟩ ↔ r ≠ invalidTs := by
  by_cases hr : r = invalidTs <;> simp [hr]

/-- The register written, read back. -/
theorem State.HasFrame.frame_withTs {s : State} {a : Byte} (h : s.HasFrame a) (r : Timestamp) :
    (s.withTs a r).frame a = { s.frame a with ts := r } :=
  s.frame_setFrame_self a _ h

/-- Any other register is as before. -/
theorem State.frame_withTs_other (s : State) {a b : Byte} (h : b ≠ a) (r : Timestamp) :
    (s.withTs a r).frame b = s.frame b :=
  s.frame_setFrame_other a b _ h

/-- Putting the old timestamp back restores every register. -/
theorem State.HasFrame.withTs_restore {s : State} {a : Byte} (h : s.HasFrame a) (r : Timestamp) :
    ((s.withTs a r).withTs a (s.frame a).ts).frames = s.frames :=
  calc ((s.withTs a r).withTs a (s.frame a).ts).frames
    _ = (s.withTs a r).frames.set a.toNat (s.frame a) := by
      rw [State.withTs, h.frame_withTs]; rfl
    _ = s.frames.set a.toNat (s.frame a) := List.set_set ..
    _ = s.frames := s.setFrame_frame_frames a

/-- What is answered when `r` is a valid and exact result under the condition `P`, and the sentinel
otherwise. -/
theorem State.withTs_exact_or_invalid (s : State) (a : Byte) {r : Timestamp} {P V E : Prop}
    (hr : (P → V ∧ E ∧ r ≠ invalidTs) ∧ (¬ P → r = invalidTs)) :
    (P → V ∧ E ∧ (s.withTs a r).rsp = some ⟨true, 1⟩) ∧
      (¬ P → r.sec = 0xFFFFFFFF ∧ r.nsec = 0xFFFFFFFF ∧ (s.withTs a r).rsp = some ⟨true, 0⟩) := by
  obtain ⟨hexact, hinvalid⟩ := hr
  refine ⟨fun hP => ?_, fun hP => ?_⟩
  · obtain ⟨hV, hE, hne⟩ := hexact hP
    exact ⟨hV, hE, (s.withTs_rsp_one_iff a r).mpr hne⟩
  · obtain rfl := hinvalid hP
    exact ⟨rfl, rfl, rfl⟩

/-! The commands. -/

/-- What TSADD does, for legal indices (R212). -/
theorem exec_tsadd {s : State} {a b : Byte} (ha : a.toNat < s.cfg.nframe)
    (hb : b.toNat < s.cfg.nframe) :
    exec (.tsadd a b) s = .next (s.withTs a (tsAdd s.cfg (s.frame a).ts (s.frame b).ts)) :=
  s.withFrames_of_lt a b (fun f g => s.putTs a f (tsAdd s.cfg f.ts g.ts)) ha hb

/-- What TSSUB does, for legal indices (R213). -/
theorem exec_tssub {s : State} {a b : Byte} (ha : a.toNat < s.cfg.nframe)
    (hb : b.toNat < s.cfg.nframe) :
    exec (.tssub a b) s = .next (s.withTs a (tsSub s.cfg (s.frame a).ts (s.frame b).ts)) :=
  s.withFrames_of_lt a b (fun f g => s.putTs a f (tsSub s.cfg f.ts g.ts)) ha hb

/-- Settles O47: the timestamp written is the one of `tsAdd_spec`. -/
theorem tsaddExactOrInvalid : Obligations.TsaddExactOrInvalid := by
  intro s a b x y ha hb
  refine ⟨decode_of_encode rfl rfl, _, exec_tsadd ha.1 hb.1, s.onlyFrame_setFrame a _ _ _, ?_⟩
  rw [ha.frame_withTs]
  exact ⟨rfl, s.withTs_exact_or_invalid a (tsAdd_spec s.cfg _ _)⟩

/-- Settles O48: the timestamp written is the one of `tsSub_spec`. -/
theorem tssubExactOrInvalid : Obligations.TssubExactOrInvalid := by
  intro s a b x y ha hb
  refine ⟨decode_of_encode rfl rfl, _, exec_tssub ha.1 hb.1, s.onlyFrame_setFrame a _ _ _, ?_⟩
  rw [ha.frame_withTs]
  exact ⟨rfl, s.withTs_exact_or_invalid a (tsSub_spec s.cfg _ _)⟩

/-! Laws of addition (R214). -/

/-- A sum that is not the sentinel has a first operand that is not. -/
theorem ne_invalidTs_of_tsAdd_ne {c : Config} {x y : Timestamp} (h : tsAdd c x y ≠ invalidTs) :
    x ≠ invalidTs := by
  rintro rfl
  exact h (by simp [tsAdd, tsValid_invalidTs])

/-- Subtraction undoes an addition that did not fail. -/
theorem tsSub_tsAdd {c : Config} {x y : Timestamp} (h : tsAdd c x y ≠ invalidTs) :
    tsSub c (tsAdd c x y) y = x := by
  obtain ⟨hadd, hinvalid⟩ := tsAdd_spec c x y
  have hfits := not_not.mp (mt hinvalid h)
  obtain ⟨hsum, hnanos, -⟩ := hadd hfits
  obtain ⟨hx, hy, -⟩ := hfits
  obtain ⟨hdiff, hback, -⟩ := (tsSub_spec c (tsAdd c x y) y).1 ⟨hsum, hy, by omega⟩
  exact Timestamp.eq_of_nanos _ _ (by omega) hdiff.2 hx.2

/-- Settles O49: the second operand is still in its register, and `tsSub_tsAdd` gives the first back. -/
theorem subtractUndoesAdd : Obligations.SubtractUndoesAdd := by
  intro s t a b ha hb hab hexec hrsp
  rw [exec_tsadd ha.1 hb.1] at hexec
  obtain rfl := Host.Outcome.next.inj hexec
  have hsum := (s.withTs_rsp_one_iff a _).mp hrsp
  refine ⟨_, exec_tssub ha.1 hb.1, ?_⟩
  rw [ha.frame_withTs, s.frame_withTs_other hab.symm, State.withTs_cfg, tsSub_tsAdd hsum]
  exact ⟨(State.withTs_rsp_one_iff ..).mpr (ne_invalidTs_of_tsAdd_ne hsum), ha.withTs_restore _⟩

/-- Settles O51: both orders write and answer one sum (`tsAdd_comm`). -/
theorem additionCommutes : Obligations.AdditionCommutes := by
  intro s t u a b ha hb ht hu
  rw [exec_tsadd ha.1 hb.1] at ht
  rw [exec_tsadd hb.1 ha.1, tsAdd_comm] at hu
  obtain rfl := Host.Outcome.next.inj ht
  obtain rfl := Host.Outcome.next.inj hu
  rw [ha.frame_withTs, hb.frame_withTs]
  exact ⟨rfl, rfl⟩

end Sys2Proof.Machine
end

section
/-! The system and buffer access commands (spec/45_system_buffer.md R220 to R225). -/

namespace Sys2Proof.Machine

/-! Status. -/

/-- What STAT answers is 1 exactly when `ILL` is set (R221). -/
theorem statusRead_eq (w : Word) : statusRead w = if w.getLsbD 0 then 1 else 0 := by
  rw [statusRead, BitVec.and_one_eq_setWidth_ofBool_getLsbD]
  cases w.getLsbD 0 <;> rfl

/-- Settles O12: NOP and STAT only answer, and STAT answers the `ILL` bit. -/
theorem nopAndStatOnlyAnswer : Obligations.NopAndStatOnlyAnswer := by
  intro s x y
  rw [← statusRead_eq]
  exact ⟨decode_of_encode rfl rfl, decode_of_encode rfl rfl, rfl, rfl⟩

/-! The bytes of the buffer. -/

/-- What BUFWR does at an offset inside the buffer (R222). -/
theorem exec_bufwr {s : State} {x : Word} (hx : x.toNat < s.cfg.bufsz) (v : Word) :
    exec (.bufwr x v) s =
      .next { s with buf := Memory.write s.buf x.toNat (lowByte v), rsp := some ⟨true, 0⟩ } := by
  rw [exec, execBufwr, if_neg (Nat.not_le.mpr hx), s.memWrite_of_le _ [lowByte v] _ hx]
  rfl

/-- Settles O13: reading back after the write of one byte. -/
theorem bufwrWritesOneByte : Obligations.BufwrWritesOneByte := by
  intro s x v hwf
  refine ⟨decode_of_encode rfl rfl, fun hin => ?_, fun hout => if_pos hout⟩
  exact ⟨_, exec_bufwr hin v, rfl, Memory.read_write_self _ _ _ hwf,
    fun k hk => Memory.read_write_other _ _ k _ hk, rfl⟩

/-- Settles O14: the only condition is the offset against `BUFSZ`. -/
theorem bufrdReadsOneByte : Obligations.BufrdReadsOneByte := by
  intro s x y
  exact ⟨decode_of_encode rfl rfl, fun hin => if_neg (Nat.not_le.mpr hin), fun hout => if_pos hout⟩

/-! The valid length. -/

/-- Settles O15: SETBLEN refuses only a length above `BUFSZ`. -/
theorem blenSetAndGet : Obligations.BlenSetAndGet := by
  intro s x y z
  exact ⟨decode_of_encode rfl rfl, decode_of_encode rfl rfl,
    fun hfits => if_neg (Nat.not_lt.mpr hfits), fun hlong => if_pos hlong, rfl⟩

end Sys2Proof.Machine
end

section
/-! The idle step (spec/60_exceptions.md R242). -/

namespace Sys2Proof.Machine

/-- Settles O9: with no event to take off the host's list, the step is `serveNothing`, which only
silences the response port. -/
theorem idleStepKeepsAllState : Obligations.IdleStepKeepsAllState := by
  intro s hidle
  calc step s = .next (serveNothing s) := step_of_host_nil hidle
    _ = .next { s with rsp := none } := by rw [serveNothing]

end Sys2Proof.Machine
end

section
/-! The first answers after reset (spec/70_reset_and_hazards.md R251): the registers and the rule list
are those of R42, and the buffer has no valid byte. -/

namespace Sys2Proof.Machine

/-- Every frame register is zero after reset (R42). -/
@[simp] theorem State.resetOf_frame (c : Config) (a : Byte) :
    (State.resetOf c).frame a = Frame.zero := by
  rw [State.frame, State.resetOf_frames, List.getD_eq_getElem?_getD,
    List.getElem?_getD_replicate_default_eq]

/-- The FilterList is empty after reset (R34, R42). -/
@[simp] theorem State.resetOf_ruleList (c : Config) : (State.resetOf c).ruleList = [] :=
  List.take_zero

/-- The image of a zero register is the tag and 22 zero bytes (R66). -/
theorem dataImage_zero (c : Config) :
    dataImage c Frame.zero = c.tagData :: List.replicate 22 0 := rfl

/-- The all-zero status is answered as 0 (R221). -/
theorem statusRead_zero : statusRead 0 = 0 := BitVec.zero_and

/-- No data frame is parsed from an empty buffer (R166). -/
theorem parseData_nil (c : Config) : parseData c [] = none := rfl

/-- No body is parsed from an empty buffer (R167, R168). -/
theorem parseBody_nil (tag : Byte) (n : Nat) : parseBody tag n [] = none := rfl

/-- With the tag 0, SERD after reset writes an image of 23 zero bytes (R251). -/
theorem exec_serd_resetOf {c : Config} (hc : c.Legal) {a : Byte} (ha : a.toNat < c.nframe)
    (htag : c.tagData = 0) :
    exec (.serd a) (State.resetOf c) =
      .next ((State.resetOf c).withImage (List.replicate 23 0)) := by
  rw [exec_serd (State.resetOf_inv hc) ha, State.resetOf_frame, dataImage_zero, State.resetOf_cfg,
    htag]
  rfl

/-- Settles O11: after reset the registers, the rule list and the valid bytes are zero or empty, and
each command answers accordingly. -/
theorem firstAnswersAfterReset : Obligations.FirstAnswersAfterReset := by
  intro c hc s
  have hinv : s.Inv := State.resetOf_inv hc
  have hstat : exec .stat s = s.done 0 := congrArg s.done statusRead_zero
  refine ⟨hstat, rfl, rfl, exec_desa_of_none hinv.valid (parseBody_nil _ _),
    exec_dese_of_none hinv.valid (parseBody_nil _ _), exec_bkind_of_empty rfl, fun a ha => ?_⟩
  refine ⟨?fltest, exec_desd_of_none ha hinv.valid (parseData_nil _),
    fun htag => ⟨_, exec_serd_resetOf hc ha htag, rfl, rfl, fun x hx => ?image⟩⟩
  case fltest =>
    rw [exec_fltest ha, State.resetOf_ruleList]
    rfl
  case image =>
    rw [hinv.read_withImage (by simpa using hx), byteOf, List.getD_replicate _ hx]

end Sys2Proof.Machine
end
